-- ==== Sys2Proof/Word.lean ====
section
/-! DEFINITION. The widths of the hardware: bytes, 16-bit words and register numbers (spec 00_scope.md R7, R9). -/

namespace Sys2Proof

/-- An 8-bit value: a general register, a timer, a memory cell (`XLEN`, R7).  All values are unsigned (R9). -/
abbrev Byte := BitVec 8

/-- A 16-bit value: an instruction, `I`, `PC`, a stack slot (`ILEN`, R7). -/
abbrev Word := BitVec 16

/-- A register number `0..15` (R21); a 4-bit field can hold nothing else (R22). -/
abbrev Reg := Fin 16

/-- The register that doubles as the flag, `VF = V[15]` (R23). -/
abbrev VF : Reg := 15

end Sys2Proof
end

