-- ==== Sys2Proof/Syntax.lean ====
section
/-! DEFINITION. The 34 instructions of the opcode map (spec 30_encoding.md R66), one constructor per row of
spec/opcode_table.json, in the table's order.  Operands carry exactly the width of their field (R62): `Reg` for `x` and
`y`, `BitVec 4` for `n`, `BitVec 8` for `nn`, `BitVec 12` for `nnn`. -/

namespace Sys2Proof

/-- One instruction.  The row's mnemonic and pattern stand beside each constructor (R66). -/
inductive Instr
  /-- `cls`, `00E0` -/
  | cls
  /-- `ret`, `00EE` -/
  | ret
  /-- `jmp`, `1nnn` -/
  | jmp (nnn : BitVec 12)
  /-- `call`, `2nnn` -/
  | call (nnn : BitVec 12)
  /-- `se_imm`, `3xnn` -/
  | seImm (x : Reg) (nn : BitVec 8)
  /-- `sne_imm`, `4xnn` -/
  | sneImm (x : Reg) (nn : BitVec 8)
  /-- `se_reg`, `5xy0` -/
  | seReg (x y : Reg)
  /-- `ld_imm`, `6xnn` -/
  | ldImm (x : Reg) (nn : BitVec 8)
  /-- `add_imm`, `7xnn` -/
  | addImm (x : Reg) (nn : BitVec 8)
  /-- `ld_reg`, `8xy0` -/
  | ldReg (x y : Reg)
  /-- `or`, `8xy1` -/
  | or (x y : Reg)
  /-- `and`, `8xy2` -/
  | and (x y : Reg)
  /-- `xor`, `8xy3` -/
  | xor (x y : Reg)
  /-- `add_reg`, `8xy4` -/
  | addReg (x y : Reg)
  /-- `sub`, `8xy5` -/
  | sub (x y : Reg)
  /-- `shr`, `8xy6`; `y` is decoded and ignored (R68) -/
  | shr (x y : Reg)
  /-- `subn`, `8xy7` -/
  | subn (x y : Reg)
  /-- `shl`, `8xyE`; `y` is decoded and ignored (R68) -/
  | shl (x y : Reg)
  /-- `sne_reg`, `9xy0` -/
  | sneReg (x y : Reg)
  /-- `ldi`, `Annn` -/
  | ldi (nnn : BitVec 12)
  /-- `jmp0`, `Bnnn` -/
  | jmp0 (nnn : BitVec 12)
  /-- `rnd`, `Cxnn` -/
  | rnd (x : Reg) (nn : BitVec 8)
  /-- `drw`, `Dxyn` -/
  | drw (x y : Reg) (n : BitVec 4)
  /-- `skp`, `Ex9E`; `x` is decoded and not used (R140) -/
  | skp (x : Reg)
  /-- `sknp`, `ExA1`; `x` is decoded and not used (R141) -/
  | sknp (x : Reg)
  /-- `getdt`, `Fx07` -/
  | getdt (x : Reg)
  /-- `waitkey`, `Fx0A`; `x` is decoded and not used (R143) -/
  | waitkey (x : Reg)
  /-- `setdt`, `Fx15` -/
  | setdt (x : Reg)
  /-- `setst`, `Fx18` -/
  | setst (x : Reg)
  /-- `addi`, `Fx1E` -/
  | addi (x : Reg)
  /-- `font`, `Fx29` -/
  | font (x : Reg)
  /-- `bcd`, `Fx33` -/
  | bcd (x : Reg)
  /-- `dump`, `Fx55` -/
  | dump (x : Reg)
  /-- `load`, `Fx65` -/
  | load (x : Reg)
  deriving DecidableEq, Repr

end Sys2Proof
end

