-- ==== Sys2Proof/Decode.lean ====
section
/-! DEFINITION. Decoding and encoding (spec 30_encoding.md R60 to R71): the byte order of an opcode, its fields, the opcode map as
a table of (mask, match) rows, the decoder, and the encoder written from the same table of the spec. -/

namespace Sys2Proof

/-! ### Bytes and fields -/

/-- Big-endian opcode of two bytes (R40, R44): `MEM[PC] * 256 + MEM[PC + 1]`. -/
def opcodeOf (hi lo : Byte) : Word := BitVec.ofNat 16 (hi.toNat * 256 + lo.toNat)

/-- The two bytes of an opcode, the first at the lower address (R40, R54). -/
def wordBytes (op : Word) : List Byte := [op.extractLsb 15 8, op.extractLsb 7 0]

/-- Field `x = op[11:8]` (R62). -/
def fieldX (op : Word) : Reg := (op.extractLsb 11 8).toFin
/-- Field `y = op[7:4]` (R62). -/
def fieldY (op : Word) : Reg := (op.extractLsb 7 4).toFin
/-- Field `n = op[3:0]` (R62). -/
def fieldN (op : Word) : BitVec 4 := op.extractLsb 3 0
/-- Field `nn = op[7:0]` (R62). -/
def fieldNN (op : Word) : BitVec 8 := op.extractLsb 7 0
/-- Field `nnn = op[11:0]` (R62). -/
def fieldNNN (op : Word) : BitVec 12 := op.extractLsb 11 0

/-! ### The opcode map -/

/-- One row of the opcode map (R66): it selects `op` when `op & mask = value` (R65). -/
structure Row where
  mask  : Word
  value : Word
  build : Word → Instr

/-- Whether a row selects an opcode (R65). -/
def Row.selects (r : Row) (op : Word) : Bool := op &&& r.mask == r.value

/-- Rows of classes 0 to 7 (R66). -/
def rowsLow : List Row :=
  [ ⟨0xFFFF, 0x00E0, fun _ => .cls⟩,
    ⟨0xFFFF, 0x00EE, fun _ => .ret⟩,
    ⟨0xF000, 0x1000, fun op => .jmp (fieldNNN op)⟩,
    ⟨0xF000, 0x2000, fun op => .call (fieldNNN op)⟩,
    ⟨0xF000, 0x3000, fun op => .seImm (fieldX op) (fieldNN op)⟩,
    ⟨0xF000, 0x4000, fun op => .sneImm (fieldX op) (fieldNN op)⟩,
    ⟨0xF00F, 0x5000, fun op => .seReg (fieldX op) (fieldY op)⟩,
    ⟨0xF000, 0x6000, fun op => .ldImm (fieldX op) (fieldNN op)⟩,
    ⟨0xF000, 0x7000, fun op => .addImm (fieldX op) (fieldNN op)⟩ ]

/-- Rows of class 8, the ALU family (R66). -/
def rowsAlu : List Row :=
  [ ⟨0xF00F, 0x8000, fun op => .ldReg (fieldX op) (fieldY op)⟩,
    ⟨0xF00F, 0x8001, fun op => .or (fieldX op) (fieldY op)⟩,
    ⟨0xF00F, 0x8002, fun op => .and (fieldX op) (fieldY op)⟩,
    ⟨0xF00F, 0x8003, fun op => .xor (fieldX op) (fieldY op)⟩,
    ⟨0xF00F, 0x8004, fun op => .addReg (fieldX op) (fieldY op)⟩,
    ⟨0xF00F, 0x8005, fun op => .sub (fieldX op) (fieldY op)⟩,
    ⟨0xF00F, 0x8006, fun op => .shr (fieldX op) (fieldY op)⟩,
    ⟨0xF00F, 0x8007, fun op => .subn (fieldX op) (fieldY op)⟩,
    ⟨0xF00F, 0x800E, fun op => .shl (fieldX op) (fieldY op)⟩ ]

/-- Rows of classes 9 to D (R66). -/
def rowsMid : List Row :=
  [ ⟨0xF00F, 0x9000, fun op => .sneReg (fieldX op) (fieldY op)⟩,
    ⟨0xF000, 0xA000, fun op => .ldi (fieldNNN op)⟩,
    ⟨0xF000, 0xB000, fun op => .jmp0 (fieldNNN op)⟩,
    ⟨0xF000, 0xC000, fun op => .rnd (fieldX op) (fieldNN op)⟩,
    ⟨0xF000, 0xD000, fun op => .drw (fieldX op) (fieldY op) (fieldN op)⟩ ]

/-- Rows of classes E and F (R66). -/
def rowsHigh : List Row :=
  [ ⟨0xF0FF, 0xE09E, fun op => .skp (fieldX op)⟩,
    ⟨0xF0FF, 0xE0A1, fun op => .sknp (fieldX op)⟩,
    ⟨0xF0FF, 0xF007, fun op => .getdt (fieldX op)⟩,
    ⟨0xF0FF, 0xF00A, fun op => .waitkey (fieldX op)⟩,
    ⟨0xF0FF, 0xF015, fun op => .setdt (fieldX op)⟩,
    ⟨0xF0FF, 0xF018, fun op => .setst (fieldX op)⟩,
    ⟨0xF0FF, 0xF01E, fun op => .addi (fieldX op)⟩,
    ⟨0xF0FF, 0xF029, fun op => .font (fieldX op)⟩,
    ⟨0xF0FF, 0xF033, fun op => .bcd (fieldX op)⟩,
    ⟨0xF0FF, 0xF055, fun op => .dump (fieldX op)⟩,
    ⟨0xF0FF, 0xF065, fun op => .load (fieldX op)⟩ ]

/-- The complete opcode map of R66: 34 rows. -/
def opcodeMap : List Row := rowsLow ++ rowsAlu ++ rowsMid ++ rowsHigh

/-! ### The decoder -/

/-- `Decode(op)` (R82): the row with `op & mask = match`, its fields filled in; `none` where no row matches (R69). -/
def decodeOp (op : Word) : Option Instr := (opcodeMap.find? (·.selects op)).map (·.build op)

/-- Why bytes are no instruction. -/
inductive DecodeReject
  /-- Fewer than the two bytes of an instruction (R60). -/
  | truncated
  /-- The opcode matches no row of the map (R69); executing it is the fault `DecodeFailure` (R153). -/
  | illegalOpcode (op : Word)
  deriving DecidableEq, Repr

/-- Decode the instruction at the head of any bytes, rejecting by name. -/
def decode : List Byte → Except DecodeReject Instr
  | hi :: lo :: _ =>
    match decodeOp (opcodeOf hi lo) with
    | some i => .ok i
    | none => .error (.illegalOpcode (opcodeOf hi lo))
  | _ => .error .truncated

/-- The opcode of a table row's bits: bit 0 is the least significant bit of the only word; the bits above `nbits` are 0. -/
def tableWord (nbits w : Nat) : Word := BitVec.ofNat 16 (w % 2 ^ nbits)

/-- What the decoder reads from a table row's bits, laid out as the hardware stores them (R40). -/
def decodeTableWord (nbits w : Nat) : Option Instr :=
  match decode (wordBytes (tableWord nbits w)) with
  | .ok i => some i
  | .error _ => none

/-! ### The encoder: OR-ing the fixed bits with the shifted fields (R71), one function per format of R63 -/

/-- A register number as the 16-bit value that is shifted into its field. -/
def regBits (x : Reg) : Word := BitVec.ofNat 16 x.val

/-- Format `A`: `match | nnn`. -/
def encodeA (value : Word) (nnn : BitVec 12) : Word := value ||| nnn.setWidth 16
/-- Format `XI`: `match | (x << 8) | nn`. -/
def encodeXI (value : Word) (x : Reg) (nn : BitVec 8) : Word := value ||| (regBits x <<< 8) ||| nn.setWidth 16
/-- Format `XY`: `match | (x << 8) | (y << 4)`. -/
def encodeXY (value : Word) (x y : Reg) : Word := value ||| (regBits x <<< 8) ||| (regBits y <<< 4)
/-- Format `XYN`: `match | (x << 8) | (y << 4) | n`. -/
def encodeXYN (value : Word) (x y : Reg) (n : BitVec 4) : Word :=
  value ||| (regBits x <<< 8) ||| (regBits y <<< 4) ||| n.setWidth 16
/-- Format `X`: `match | (x << 8)`. -/
def encodeX (value : Word) (x : Reg) : Word := value ||| (regBits x <<< 8)

/-- The opcode of an instruction (R66, R71); every instruction has exactly one. -/
def encode : Instr → Word
  | .cls => 0x00E0
  | .ret => 0x00EE
  | .jmp nnn => encodeA 0x1000 nnn
  | .call nnn => encodeA 0x2000 nnn
  | .seImm x nn => encodeXI 0x3000 x nn
  | .sneImm x nn => encodeXI 0x4000 x nn
  | .seReg x y => encodeXY 0x5000 x y
  | .ldImm x nn => encodeXI 0x6000 x nn
  | .addImm x nn => encodeXI 0x7000 x nn
  | .ldReg x y => encodeXY 0x8000 x y
  | .or x y => encodeXY 0x8001 x y
  | .and x y => encodeXY 0x8002 x y
  | .xor x y => encodeXY 0x8003 x y
  | .addReg x y => encodeXY 0x8004 x y
  | .sub x y => encodeXY 0x8005 x y
  | .shr x y => encodeXY 0x8006 x y
  | .subn x y => encodeXY 0x8007 x y
  | .shl x y => encodeXY 0x800E x y
  | .sneReg x y => encodeXY 0x9000 x y
  | .ldi nnn => encodeA 0xA000 nnn
  | .jmp0 nnn => encodeA 0xB000 nnn
  | .rnd x nn => encodeXI 0xC000 x nn
  | .drw x y n => encodeXYN 0xD000 x y n
  | .skp x => encodeX 0xE09E x
  | .sknp x => encodeX 0xE0A1 x
  | .getdt x => encodeX 0xF007 x
  | .waitkey x => encodeX 0xF00A x
  | .setdt x => encodeX 0xF015 x
  | .setst x => encodeX 0xF018 x
  | .addi x => encodeX 0xF01E x
  | .font x => encodeX 0xF029 x
  | .bcd x => encodeX 0xF033 x
  | .dump x => encodeX 0xF055 x
  | .load x => encodeX 0xF065 x

/-- The bytes of an instruction as a program image holds them (R54): big-endian. -/
def encodeBytes (i : Instr) : List Byte := wordBytes (encode i)

end Sys2Proof
end

