-- ==== Sys2Proof/Config.lean ====
section
/-! DEFINITION. The fixed sizes (R7), the parameters of the hardware (R8) and the one free value, the random draw (R111).
A parameter's DEFAULT value is not here: see Machine/Defaults.lean. -/

namespace Sys2Proof

/-- `MEM_SIZE` (R7): bytes of memory, addresses `0x000..0xFFF`. -/
@[simp] abbrev Config.memSize : Nat := 4096

/-- `PROG_BASE` (R7): where `Load` puts the program; also the reset value of `PC`. -/
@[simp] abbrev Config.progBase : Nat := 0x200

/-- `PROG_MAX` (R7): the longest loadable buffer. -/
@[simp] abbrev Config.progMax : Nat := 3584

/-- The parameter `DT_COUNTDOWN` (R8, R85, R163; 92_eei_decisions.md D13): whether the cycle epilogue counts `DT` down. -/
inductive DtCountdown
  | off
  | perCycle
  deriving DecidableEq, Repr

/-- The parameters a model takes as arguments (R8).  `step` has no argument but the state, so a state carries them
(log entry 1): no instruction, no cycle and no `Load` changes them, and a claim about every state is a claim about
every setting. -/
structure Params where
  /-- `FONT`: the 80 bytes preloaded at `0x000..0x04F` (R31, D15). -/
  font        : Vector Byte 80
  /-- `DT_COUNTDOWN` (D13). -/
  dtCountdown : DtCountdown
  deriving DecidableEq, Repr

/-- FREE VALUE (R8, R111, D14; log entry 3): the `k`-th draw `rand` of the host's `Cycle(rand)` calls.  It has no
body: nothing is known of any draw, of their distribution or of their independence. -/
opaque Config.rand : Nat → Byte

end Sys2Proof
end

