-- ==== Sys2Proof/Machine/Defaults.lean ====
section
/-! DEFINITION. The default values of the parameters (spec R8): the font table of R31 and `DT_COUNTDOWN = off`.  Only `State.reset`
takes them; every other definition works from the parameters a state carries. -/

namespace Sys2Proof.Machine

/-- Glyphs 0 to 7 of the default `FONT` (R31; log entry 2). -/
def fontLow : List Byte :=
  [0xF0, 0x90, 0x90, 0x90, 0xF0] ++ [0x20, 0x60, 0x20, 0x20, 0x70] ++
  [0xF0, 0x10, 0xF0, 0x80, 0xF0] ++ [0xF0, 0x10, 0xF0, 0x10, 0xF0] ++
  [0x90, 0x90, 0xF0, 0x10, 0x10] ++ [0xF0, 0x80, 0xF0, 0x10, 0xF0] ++
  [0xF0, 0x80, 0xF0, 0x90, 0xF0] ++ [0xF0, 0x10, 0x20, 0x40, 0x40]

/-- Glyphs 8 to F of the default `FONT` (R31; log entry 2). -/
def fontHigh : List Byte :=
  [0xF0, 0x90, 0xF0, 0x90, 0xF0] ++ [0xF0, 0x90, 0xF0, 0x10, 0xF0] ++
  [0xF0, 0x90, 0xF0, 0x90, 0x90] ++ [0xE0, 0x90, 0xE0, 0x90, 0xE0] ++
  [0xF0, 0x80, 0x80, 0x80, 0xF0] ++ [0xE0, 0x90, 0x90, 0x90, 0xE0] ++
  [0xF0, 0x80, 0xF0, 0x80, 0xF0] ++ [0xF0, 0x80, 0xF0, 0x80, 0x80]

/-- The default `FONT`, 16 glyphs of five bytes, digit `d` at `5 * d` (R31).  PRESUMED (log entry 2): the conventional
CHIP-8 font, which the spec itself takes from general knowledge. -/
def defaultFont : Vector Byte 80 := ⟨(fontLow ++ fontHigh).toArray, by decide⟩

/-- The default parameters (R8): the conventional font, and a delay timer that no cycle counts down (D13; log entry 4). -/
def defaultParams : Params := { font := defaultFont, dtCountdown := .off }

end Sys2Proof.Machine
end

