-- ==== Sys2Proof/Machine/State.lean ====
section
/-! DEFINITION. The state of the machine (spec 10_state.md R20), its value after reset (R36), and the reasons a step can stop. -/

namespace Sys2Proof.Machine

/-- Memory as plain data: the cells whose content differs from the reset content, at rising addresses
(`Memory.wf` in Machine/Ops.lean; what an unlisted address reads as is `Memory.unlisted`). -/
abbrev Memory := List Host.Cell

/-- The frame buffer (R33): 32 rows of 64 cells, each 0 (`false`) or 1 (`true`); first index the row. -/
abbrev FrameBuffer := Vector (Vector Bool 64) 32

/-- What a completed cycle reports (R87). -/
inductive Event
  /-- `ST` was above 0 after execute; the opcode is not reported. -/
  | audio
  /-- `ST` was 0 after execute: the opcode that ran. -/
  | executed (op : Word)
  deriving DecidableEq, Repr

/-- The fatal failures of R150, with the value each records.  The machine stops; no state written by the cycle survives
(R151).  All five are safe: the spec itself ends execution there (for the bounds the spec marks as its own choice, D1, D11
and D18, a hardware that went on would do more than the model, never less). -/
inductive Fault
  /-- Code 1. Raised by `fetch` when `PC > 4094` (R152); records `PC`. Safe. -/
  | fetchOutOfBounds (pc : Word)
  /-- Code 2. Raised by `step` when the fetched opcode matches no row of the opcode map (R153); records it and `PC`. Safe. -/
  | decodeFailure (op pc : Word)
  /-- Code 3. Raised by `call` when `SP = 16` (R154). Safe. -/
  | stackOverflow
  /-- Code 4. Raised by `ret` when `SP = 0` (R155). Safe. -/
  | stackUnderflow
  /-- Code 5. Raised by `drw`, `bcd`, `dump`, `load` when the highest address used is 4096 or more (R156); records the
  lowest offending address. Safe. -/
  | memoryOutOfBounds (addr : Nat)
  deriving DecidableEq, Repr

/-- Refusals: no meaning is given. -/
inductive Refusal
  /-- Raised by `exec` for an instruction without a meaning; no arm of this model raises it. Safe. -/
  | notModelled (mnemonic : String)
  /-- Raised by the host operation `load` for a buffer longer than 3584 bytes (R160, R183). Never raised by a step. Safe. -/
  | loadTooLarge
  deriving DecidableEq, Repr

/-- The architectural state of R20, then three fields of the model's own (log entries 1, 3 and 5). -/
structure State where
  /-- `V0`..`VF` (R21). -/
  v      : Vector Byte 16
  /-- The index register `I` (R28). -/
  i      : Word
  /-- The program counter `PC` (R25). -/
  pc     : Word
  /-- `SP`, the number of occupied stack slots, 0 to 16 (R30). -/
  sp     : Fin 17
  /-- The 16 slots of the call stack (R30). -/
  stack  : Vector Word 16
  /-- The delay timer `DT` (R29, R163). -/
  dt     : Byte
  /-- The sound timer `ST` (R29, R164). -/
  st     : Byte
  /-- `MEM` (R31, R32). -/
  mem    : Memory
  /-- `FB` (R33). -/
  fb     : FrameBuffer
  /-- MODEL'S OWN (log entry 1): the parameters of R8, which nothing changes. -/
  params : Params
  /-- MODEL'S OWN (log entry 3): how many draws `rand` earlier cycles took; this cycle's is `Config.rand draws`. -/
  draws  : Nat
  /-- MODEL'S OWN (log entry 5): the event the last completed cycle reported (R87); none after a load.  Nothing reads it. -/
  event  : Option Event
  deriving DecidableEq, Repr

/-- The machine after reset: `Load` of the empty buffer (R36, R180, R182), at the default parameters (R8). -/
def State.reset : State where
  v := Vector.replicate 16 0
  i := 0
  pc := 0x200
  sp := 0
  stack := Vector.replicate 16 0
  dt := 0
  st := 0
  mem := []
  fb := Vector.replicate 32 (Vector.replicate 64 false)
  params := defaultParams
  draws := 0
  event := none

end Sys2Proof.Machine
end

