-- ==== Sys2Proof/Machine/Ops.lean ====
section
/-! DEFINITION. The named operations every meaning is made of: registers, memory, fetch, the call stack, the frame buffer, the
cycle epilogue, and the one way a cycle fails.  The hardware has no trap entry and no return from one (R158, R159). -/

namespace Sys2Proof.Machine

/-! ### Faults: `raise` -/

/-- `raise <Fault>(info)` (R10, R150): the ONE operation that takes an exception.  There is no handler, no vector, no saved
register and no mode to change (R158): the fault and its recorded value are the whole result, and the state before the
cycle is the state after it (R151), which is why the outcome carries none. -/
@[reducible] def raise (f : Fault) : Host.Outcome State Fault Refusal := .fault f

/-- The numeric code of a fault (R150). -/
def Fault.code : Fault → Nat
  | .fetchOutOfBounds _ => 1
  | .decodeFailure _ _ => 2
  | .stackOverflow => 3
  | .stackUnderflow => 4
  | .memoryOutOfBounds _ => 5

/-! ### Registers (R10, R21) -/

/-- Read of `V[x]`. -/
def State.reg (s : State) (x : Reg) : Byte := s.v[x]

/-- Write of `V[x]`. -/
def State.setReg (s : State) (x : Reg) (b : Byte) : State := { s with v := s.v.set x b }

/-- Write of consecutive registers `V[k]`, `V[k+1]`, ... (Fx65, R126). -/
def State.setRegs : Nat → List Byte → State → State
  | _, [], s => s
  | k, b :: bs, s => State.setRegs (k + 1) bs { s with v := s.v.setIfInBounds k b }

/-- Write of `PC`. -/
def State.setPc (s : State) (target : Word) : State := { s with pc := target }

/-- `PC <- PC + n`; `PC` on the right is the address of the instruction itself (R84).  A cycle has `PC <= 4094` here, so
the sum never leaves 16 bits (R27). -/
def State.advance (s : State) (n : Word) : State := { s with pc := s.pc + n }

/-! ### Memory (R31, R44, R45) -/

/-- What an address that no write has changed since the load reads as (R31): the font at `0x000..0x04F`, else 0. -/
def Memory.unlisted (font : Vector Byte 80) (a : Nat) : Byte := if h : a < 80 then font[a] else 0

/-- The byte at an address. -/
def Memory.read (font : Vector Byte 80) (a : Nat) : Memory → Byte
  | [] => Memory.unlisted font a
  | (b, v) :: rest => if a = b then v else Memory.read font a rest

/-- List a cell at its place. -/
def Memory.insert (a : Nat) (v : Byte) : Memory → Memory
  | [] => [(a, v)]
  | (b, w) :: rest =>
    if a < b then (a, v) :: (b, w) :: rest
    else if a = b then (a, v) :: rest
    else (b, w) :: Memory.insert a v rest

/-- Unlist a cell. -/
def Memory.erase (a : Nat) (m : Memory) : Memory := m.filter (fun c => c.1 != a)

/-- `MEM[a] <- v`, keeping the canonical form: writing the unlisted value unlists the cell. -/
def Memory.write (font : Vector Byte 80) (a : Nat) (v : Byte) (m : Memory) : Memory :=
  if v = Memory.unlisted font a then Memory.erase a m else Memory.insert a v m

/-- The canonical form from address `lo` on. -/
def Memory.wfFrom (font : Vector Byte 80) : Nat → Memory → Bool
  | _, [] => true
  | lo, (a, v) :: rest =>
    decide (lo ≤ a) && decide (a < 4096) && decide (v ≠ Memory.unlisted font a) && Memory.wfFrom font (a + 1) rest

/-- The canonical form of memory: addresses strictly rising and below 4096, no entry equal to the unlisted value. -/
def Memory.wf (font : Vector Byte 80) (m : Memory) : Bool := Memory.wfFrom font 0 m

/-- `MEM[a]`, for `a < 4096` (R44).  The bound of R43 is tested by `fetch` and `State.indexed`, once for all the bytes
of an access (R124). -/
def State.byteAt (s : State) (a : Nat) : Byte := Memory.read s.params.font a s.mem

/-- `MEM[a] <- b`, for `a < 4096` (R45); every byte is writable, font and program included (R32). -/
def State.setByte (s : State) (a : Nat) (b : Byte) : State := { s with mem := Memory.write s.params.font a b s.mem }

/-- The `n` bytes from `a` on, read at increasing addresses (R41). -/
def State.bytesAt (s : State) (a n : Nat) : List Byte := (List.range n).map (fun k => s.byteAt (a + k))

/-- Store bytes at increasing addresses from `a` on (R41). -/
def State.storeBytes : Nat → List Byte → State → State
  | _, [], s => s
  | a, b :: bs, s => State.storeBytes (a + 1) bs (s.setByte a b)

/-- Fetch (R44, R81): the two bytes at `PC`, big-endian; `FetchOutOfBounds` when `PC + 1` is not below 4096 (R152).
`PC` may be odd (R26). -/
def fetch (s : State) : Except Fault Word :=
  if s.pc.toNat + 1 < Config.memSize then .ok (opcodeOf (s.byteAt s.pc.toNat) (s.byteAt (s.pc.toNat + 1)))
  else .error (.fetchOutOfBounds s.pc)

/-! ### The call stack (R30, R34) -/

/-- `STACK[k]`. -/
def State.slot (s : State) (k : Fin 16) : Word := s.stack[k]

/-- Push: `STACK[SP] <- w`, then `SP <- SP + 1`; none when all 16 slots are occupied (R92). -/
def State.push (s : State) (w : Word) : Option State :=
  if h : s.sp.val < 16 then some { s with stack := s.stack.set s.sp.val w, sp := ⟨s.sp.val + 1, by omega⟩ }
  else none

/-- Pop: `SP <- SP - 1`, then read `STACK[SP]`, which keeps its value; none when the stack is empty (R90). -/
def State.pop (s : State) : Option (Word × State) :=
  if h : 0 < s.sp.val then
    some (s.stack[s.sp.val - 1]'(by omega), { s with sp := ⟨s.sp.val - 1, by omega⟩ })
  else none

/-! ### The frame buffer (R33, R131) -/

/-- `FB[r][c]`. -/
def FrameBuffer.cell (fb : FrameBuffer) (r : Fin 32) (c : Fin 64) : Bool := (fb[r])[c]

/-- `FB[r][c]` of a state. -/
def State.cell (s : State) (r : Fin 32) (c : Fin 64) : Bool := s.fb.cell r c

/-- All cells 0. -/
def FrameBuffer.blank : FrameBuffer := Vector.replicate 32 (Vector.replicate 64 false)

/-- `FB[r][c] <- FB[r][c] ^ 1`. -/
def FrameBuffer.toggle (fb : FrameBuffer) (r : Fin 32) (c : Fin 64) : FrameBuffer :=
  fb.set r ((fb[r]).set c (!(fb.cell r c)))

/-- A row number taken `mod 32`. -/
def wrapRow (k : Nat) : Fin 32 := ⟨k % 32, by omega⟩

/-- A column number taken `mod 64`. -/
def wrapCol (k : Nat) : Fin 64 := ⟨k % 64, by omega⟩

/-- Toggle one cell of a drawing in progress (the frame buffer and whether a cell was turned off so far). -/
def drawPixel (r : Fin 32) (c : Fin 64) (d : FrameBuffer × Bool) : FrameBuffer × Bool :=
  (d.1.toggle r c, d.2 || d.1.cell r c)

/-- Draw the set bits of one sprite byte, bit 7 leftmost, in row `r` from column `vx` on. -/
def drawRow (vx : Nat) (r : Fin 32) (b : Byte) (d : FrameBuffer × Bool) : FrameBuffer × Bool :=
  (List.range 8).foldl
    (fun d col => if b.getLsbD (7 - col) then drawPixel r (wrapCol (vx + col)) d else d) d

/-- Draw sprite bytes one below the other, the first in row `y`. -/
def drawRows (vx : Nat) : Nat → List Byte → FrameBuffer × Bool → FrameBuffer × Bool
  | _, [], d => d
  | y, b :: bs, d => drawRows vx (y + 1) bs (drawRow vx (wrapRow y) b d)

/-! ### The cycle epilogue (R85 to R87) -/

/-- Delay-timer step: only under `per_cycle`, and never below 0 (R85, R163). -/
def State.delayStep (s : State) : State :=
  if s.params.dtCountdown = .perCycle ∧ 0 < s.dt.toNat then { s with dt := s.dt - 1 } else s

/-- Sound-timer step and the event it decides (R86, R87). -/
def State.soundStep (op : Word) (s : State) : State :=
  if 0 < s.st.toNat then { s with st := s.st - 1, event := some .audio }
  else { s with event := some (.executed op) }

/-- The next `Cycle` call brings the next draw (R80; log entry 3). -/
def State.nextDraw (s : State) : State := { s with draws := s.draws + 1 }

/-- What a cycle does after execute, in the order of R80. -/
def epilogue (op : Word) (s : State) : State := ((s.delayStep).soundStep op).nextDraw

end Sys2Proof.Machine
end

