-- ==== Sys2Proof/Machine/Flags.lean ====
section
/-! DEFINITION. The flag `VF`: the value each flag-writing instruction gives it (spec R23, R106 to R110, R113, R131), and the order
of the result write and the flag write (R24). -/

namespace Sys2Proof.Machine

/-- A flag is always stored as the full byte `0x00` or `0x01` (R23). -/
def flagByte (b : Bool) : Byte := if b then 1 else 0

/-- Carry out of an 8-bit addition: 1 iff the sum exceeds 255 (R106). -/
def carryFlag (a b : Byte) : Byte := flagByte (decide (255 < a.toNat + b.toNat))

/-- Borrow of `a - b`: 1 iff the subtraction underflows (R107, R109; the opposite of conventional CHIP-8, C5). -/
def borrowFlag (a b : Byte) : Byte := flagByte (decide (a.toNat < b.toNat))

/-- The bit a right shift drops, bit 0 (R108). -/
def lowBitFlag (a : Byte) : Byte := flagByte (a.getLsbD 0)

/-- The bit a left shift drops, bit 7 (R110). -/
def highBitFlag (a : Byte) : Byte := flagByte (a.getLsbD 7)

/-- `V[x] <- result`, then `VF <- flag`, so that with `x = 15` the flag is what stays (R24). -/
def State.setRegAndFlag (s : State) (x : Reg) (result flag : Byte) : State := (s.setReg x result).setReg VF flag

end Sys2Proof.Machine
end

