-- ==== Sys2Proof/Machine/Alu.lean ====
section
/-! DEFINITION. Register and ALU instructions (spec 42_register_alu.md).  8-bit arithmetic wraps modulo 256 and is unsigned (R112). -/

namespace Sys2Proof.Machine

/-- `V[x] <- result; PC <- PC + 2`: the shape of the instructions that write no flag. -/
def State.finish (s : State) (x : Reg) (result : Byte) : Host.Outcome State Fault Refusal :=
  .next ((s.setReg x result).advance 2)

/-- `V[x] <- result; VF <- flag; PC <- PC + 2`: the shape of the instructions that write the flag. -/
def State.finishFlag (s : State) (x : Reg) (result flag : Byte) : Host.Outcome State Fault Refusal :=
  .next ((s.setRegAndFlag x result flag).advance 2)

/-- `6xnn` ld_imm (R100). -/
def execLdImm (x : Reg) (nn : BitVec 8) (s : State) : Host.Outcome State Fault Refusal := s.finish x nn

/-- `7xnn` add_imm (R101): `VF` is not written as a flag. -/
def execAddImm (x : Reg) (nn : BitVec 8) (s : State) : Host.Outcome State Fault Refusal := s.finish x (s.reg x + nn)

/-- `8xy0` ld_reg (R102). -/
def execLdReg (x y : Reg) (s : State) : Host.Outcome State Fault Refusal := s.finish x (s.reg y)

/-- `8xy1` or (R103). -/
def execOr (x y : Reg) (s : State) : Host.Outcome State Fault Refusal := s.finish x (s.reg x ||| s.reg y)

/-- `8xy2` and (R104). -/
def execAnd (x y : Reg) (s : State) : Host.Outcome State Fault Refusal := s.finish x (s.reg x &&& s.reg y)

/-- `8xy3` xor (R105). -/
def execXor (x y : Reg) (s : State) : Host.Outcome State Fault Refusal := s.finish x (s.reg x ^^^ s.reg y)

/-- `8xy4` add_reg (R106): no carry in. -/
def execAddReg (x y : Reg) (s : State) : Host.Outcome State Fault Refusal :=
  s.finishFlag x (s.reg x + s.reg y) (carryFlag (s.reg x) (s.reg y))

/-- `8xy5` sub (R107): `V[x] - V[y]`; the flag is the borrow. -/
def execSub (x y : Reg) (s : State) : Host.Outcome State Fault Refusal :=
  s.finishFlag x (s.reg x - s.reg y) (borrowFlag (s.reg x) (s.reg y))

/-- `8xy6` shr (R108): `V[x]` in place; `y` is ignored. -/
def execShr (x _y : Reg) (s : State) : Host.Outcome State Fault Refusal :=
  s.finishFlag x (s.reg x >>> 1) (lowBitFlag (s.reg x))

/-- `8xy7` subn (R109): `V[y] - V[x]`, to `V[x]`. -/
def execSubn (x y : Reg) (s : State) : Host.Outcome State Fault Refusal :=
  s.finishFlag x (s.reg y - s.reg x) (borrowFlag (s.reg y) (s.reg x))

/-- `8xyE` shl (R110): `V[x]` in place; `y` is ignored. -/
def execShl (x _y : Reg) (s : State) : Host.Outcome State Fault Refusal :=
  s.finishFlag x (s.reg x <<< 1) (highBitFlag (s.reg x))

/-- `Cxnn` rnd (R111): this cycle's draw, a free value (log entry 3), under the mask `nn`. -/
def execRnd (x : Reg) (nn : BitVec 8) (s : State) : Host.Outcome State Fault Refusal :=
  s.finish x (Config.rand s.draws &&& nn)

end Sys2Proof.Machine
end

