-- ==== Sys2Proof/Machine/Operands.lean ====
section
/-! DEFINITION. The operand forms (spec R62 to R64, R124): registers, zero-extended immediates, and the index-plus-offset memory
operand with its bounds check.  There is no other addressing mode (R46, R127). -/

namespace Sys2Proof.Machine

/-- `zext_16(nnn)`: an address immediate written to `PC` or `I` (R64). -/
def immAddr (nnn : BitVec 12) : Word := nnn.setWidth 16

/-- `zext_16(V[x])`: a register's value in 16-bit arithmetic (R97, R121, R122). -/
def State.wideReg (s : State) (x : Reg) : Word := (s.reg x).setWidth 16

/-- The address of element `k` of a memory operand: `I + k`, without any wrap (R43, R124). -/
def State.elemAddr (s : State) (k : Nat) : Nat := s.i.toNat + k

/-- The common rule of the memory instructions (R124): before any read or write, the highest of the `len` addresses from
`I` on is checked; if it is 4096 or more the instruction raises `MemoryOutOfBounds` with the lowest offending address.
An access of no bytes never faults (R131). -/
def State.indexed (s : State) (len : Nat) (body : Host.Outcome State Fault Refusal) :
    Host.Outcome State Fault Refusal :=
  if 0 < len ∧ Config.memSize < s.elemAddr len then raise (.memoryOutOfBounds (max s.i.toNat Config.memSize)) else body

/-- A conditional skip: `PC + 4` when the condition holds, else `PC + 2` (R93). -/
def State.skipIf (s : State) (c : Bool) : State := s.advance (if c then 4 else 2)

/-- The registers `V0..Vx`, in order (R125). -/
def State.regsUpTo (s : State) (x : Reg) : List Byte := s.v.toList.take (x.val + 1)

/-- The hundreds, tens and units digit of a byte (R123). -/
def bcdDigits (v : Byte) : List Byte :=
  [BitVec.ofNat 8 (v.toNat / 100), BitVec.ofNat 8 (v.toNat / 10 % 10), BitVec.ofNat 8 (v.toNat % 10)]

end Sys2Proof.Machine
end

