-- ==== Sys2Proof/Machine/ControlFlow.lean ====
section
/-! DEFINITION. Control flow (spec 41_control_flow.md): `ret jmp call se_imm sne_imm se_reg sne_reg jmp0`. -/

namespace Sys2Proof.Machine

/-- `00EE` ret (R90). -/
def execRet (s : State) : Host.Outcome State Fault Refusal :=
  match s.pop with
  | some (target, t) => .next (t.setPc target)
  | none => raise .stackUnderflow

/-- `1nnn` jmp (R91). -/
def execJmp (nnn : BitVec 12) (s : State) : Host.Outcome State Fault Refusal := .next (s.setPc (immAddr nnn))

/-- `2nnn` call (R92): pushes the address after itself. -/
def execCall (nnn : BitVec 12) (s : State) : Host.Outcome State Fault Refusal :=
  match s.push (s.pc + 2) with
  | some t => .next (t.setPc (immAddr nnn))
  | none => raise .stackOverflow

/-- `3xnn` se_imm (R93). -/
def execSeImm (x : Reg) (nn : BitVec 8) (s : State) : Host.Outcome State Fault Refusal :=
  .next (s.skipIf (s.reg x == nn))

/-- `4xnn` sne_imm (R94). -/
def execSneImm (x : Reg) (nn : BitVec 8) (s : State) : Host.Outcome State Fault Refusal :=
  .next (s.skipIf (s.reg x != nn))

/-- `5xy0` se_reg (R95). -/
def execSeReg (x y : Reg) (s : State) : Host.Outcome State Fault Refusal := .next (s.skipIf (s.reg x == s.reg y))

/-- `9xy0` sne_reg (R96). -/
def execSneReg (x y : Reg) (s : State) : Host.Outcome State Fault Refusal := .next (s.skipIf (s.reg x != s.reg y))

/-- `Bnnn` jmp0 (R97): always `V0`, and no masking of the sum. -/
def execJmp0 (nnn : BitVec 12) (s : State) : Host.Outcome State Fault Refusal :=
  .next (s.setPc (immAddr nnn + s.wideReg 0))

end Sys2Proof.Machine
end

