-- ==== Sys2Proof/Machine/Display.lean ====
section
/-! DEFINITION. Display instructions (spec 44_display.md): `cls drw`. -/

namespace Sys2Proof.Machine

/-- `00E0` cls (R130). -/
def execCls (s : State) : Host.Outcome State Fault Refusal := .next (({ s with fb := FrameBuffer.blank } : State).advance 2)

/-- The frame buffer and the collision flag after drawing the `n` sprite rows at `I`, the coordinates as read before `VF`
is written and the flag starting from 0 (R131). -/
def State.sprite (s : State) (x y : Reg) (n : BitVec 4) : FrameBuffer × Bool :=
  drawRows (s.reg x).toNat (s.reg y).toNat (s.bytesAt (s.elemAddr 0) n.toNat) (s.fb, false)

/-- `Dxyn` drw (R131). -/
def execDrw (x y : Reg) (n : BitVec 4) (s : State) : Host.Outcome State Fault Refusal :=
  s.indexed n.toNat
    (.next ((({ s with fb := (s.sprite x y n).1 } : State).setReg VF (flagByte (s.sprite x y n).2)).advance 2))

end Sys2Proof.Machine
end

