-- ==== Sys2Proof/Machine/IndexMemory.lean ====
section
/-! DEFINITION. Index-register and memory instructions (spec 43_index_memory.md).  No access changes `I` (R124). -/

namespace Sys2Proof.Machine

/-- `I <- a; PC <- PC + 2`. -/
def State.finishIndex (s : State) (a : Word) : Host.Outcome State Fault Refusal := .next (({ s with i := a } : State).advance 2)

/-- `Annn` ldi (R120). -/
def execLdi (nnn : BitVec 12) (s : State) : Host.Outcome State Fault Refusal := s.finishIndex (immAddr nnn)

/-- `Fx1E` addi (R121): modulo 65536, no flag. -/
def execAddi (x : Reg) (s : State) : Host.Outcome State Fault Refusal := s.finishIndex (s.i + s.wideReg x)

/-- `Fx29` font (R122): the whole register value times 5. -/
def execFont (x : Reg) (s : State) : Host.Outcome State Fault Refusal := s.finishIndex (s.wideReg x * 5)

/-- `Fx33` bcd (R123). -/
def execBcd (x : Reg) (s : State) : Host.Outcome State Fault Refusal :=
  s.indexed 3 (.next ((s.storeBytes (s.elemAddr 0) (bcdDigits (s.reg x))).advance 2))

/-- `Fx55` dump (R125). -/
def execDump (x : Reg) (s : State) : Host.Outcome State Fault Refusal :=
  s.indexed (x.val + 1) (.next ((s.storeBytes (s.elemAddr 0) (s.regsUpTo x)).advance 2))

/-- `Fx65` load (R126). -/
def execLoad (x : Reg) (s : State) : Host.Outcome State Fault Refusal :=
  s.indexed (x.val + 1) (.next ((s.setRegs 0 (s.bytesAt (s.elemAddr 0) (x.val + 1))).advance 2))

end Sys2Proof.Machine
end

