-- ==== Sys2Proof/Machine/TimersKeys.lean ====
section
/-! DEFINITION. Timer and key instructions (spec 45_timers_keys.md).  The input device is not modelled by the hardware: the key
instructions only advance `PC` (R140, R141, R143). -/

namespace Sys2Proof.Machine

/-- `Ex9E` skp (R140): never skips; `V[x]` is not read. -/
def execSkp (_x : Reg) (s : State) : Host.Outcome State Fault Refusal := .next (s.advance 2)

/-- `ExA1` sknp (R141): never skips either. -/
def execSknp (_x : Reg) (s : State) : Host.Outcome State Fault Refusal := .next (s.advance 2)

/-- `Fx07` getdt (R142). -/
def execGetdt (x : Reg) (s : State) : Host.Outcome State Fault Refusal := .next ((s.setReg x s.dt).advance 2)

/-- `Fx0A` waitkey (R143): never waits; `V[x]` is not written. -/
def execWaitkey (_x : Reg) (s : State) : Host.Outcome State Fault Refusal := .next (s.advance 2)

/-- `Fx15` setdt (R144). -/
def execSetdt (x : Reg) (s : State) : Host.Outcome State Fault Refusal :=
  .next (({ s with dt := s.reg x } : State).advance 2)

/-- `Fx18` setst (R145). -/
def execSetst (x : Reg) (s : State) : Host.Outcome State Fault Refusal :=
  .next (({ s with st := s.reg x } : State).advance 2)

end Sys2Proof.Machine
end

