-- ==== Sys2Proof/Machine/Step.lean ====
section
/-! DEFINITION. `Cycle(rand)`, the core's only step (spec R80): fetch, decode, execute, epilogue. -/

namespace Sys2Proof.Machine

/-- One engine cycle (R80).  Faults come in the order fetch, decode, execute (R157); a faulting cycle runs no epilogue
(R150). -/
def step (s : State) : Host.Outcome State Fault Refusal :=
  match fetch s with
  | .error f => raise f
  | .ok op =>
    match decodeOp op with
    | none => raise (.decodeFailure op s.pc)
    | some i =>
      match exec i s with
      | .next t => .next (epilogue op t)
      | .fault f => .fault f
      | .refused r => .refused r

/-- `s` with a table row's instruction stored where the next step fetches: at `PC`, or, where no fetch is possible
(`PC > 4094`), at `0x200` with `PC` set there. -/
def State.withFetchWord (s : State) (nbits w : Nat) : State :=
  let t := if s.pc.toNat + 1 < Config.memSize then s else s.setPc 0x200
  t.storeBytes t.pc.toNat (wordBytes (tableWord nbits w))

end Sys2Proof.Machine
end

