-- ==== Sys2Proof/WellFormed.lean ====
section
/-! DEFINITION. The checks on what comes from outside: the legal opcodes (R69), written class by class as the spec's list of
the ILLEGAL ones has them and not from the decoder's table, and the loadable program images (R54, R183).

A term of `Instr` needs no check of its own: each operand's type is exactly its field (R62, R64), so that every term is
one the encoder can write; "register index out of bounds" cannot arise (R22). -/

namespace Sys2Proof

/-- Class 0: only `00E0` and `00EE` are legal (R69). -/
def Opcode.legalZero (op : Word) : Bool := op.toNat == 0x00E0 || op.toNat == 0x00EE

/-- Classes 5 and 9: the low nibble must be 0 (R68, R69). -/
def Opcode.legalSkipReg (op : Word) : Bool := op.toNat % 16 == 0

/-- Class 8: the low nibble is none of `8 9 A B C D F` (R69). -/
def Opcode.legalAlu (op : Word) : Bool := !([0x8, 0x9, 0xA, 0xB, 0xC, 0xD, 0xF].contains (op.toNat % 16))

/-- Class E: the low byte is `9E` or `A1` (R69). -/
def Opcode.legalKey (op : Word) : Bool := [0x9E, 0xA1].contains (op.toNat % 256)

/-- Class F: the low byte is one of the nine listed (R69). -/
def Opcode.legalMisc (op : Word) : Bool :=
  [0x07, 0x0A, 0x15, 0x18, 0x1E, 0x29, 0x33, 0x55, 0x65].contains (op.toNat % 256)

/-- Legal opcodes: every value outside the table of R69, by operation class `op[15:12]`. -/
def Opcode.legal (op : Word) : Bool :=
  match op.toNat / 4096 with
  | 0x0 => Opcode.legalZero op
  | 0x5 => Opcode.legalSkipReg op
  | 0x8 => Opcode.legalAlu op
  | 0x9 => Opcode.legalSkipReg op
  | 0xE => Opcode.legalKey op
  | 0xF => Opcode.legalMisc op
  | _ => true

/-- A program image that `Load` accepts (R54, R183): any bytes, of any length up to `PROG_MAX`. -/
def Image.wellFormed (buf : List Byte) : Bool := decide (buf.length ≤ Config.progMax)

end Sys2Proof
end

