-- ==== Sys2Proof/Machine/HostInterface.lean ====
section
/-! DEFINITION. What the host may do between cycles besides running one (spec R5, R6): load a program, which is the only reset
(R180 to R183), and read the frame buffer (R134). -/

namespace Sys2Proof.Machine

/-- `Load(buf)` (R182): everything back to its reset value, then the buffer copied to `0x200` on; refused when it does not
fit (R183).  The parameters are the hardware's and stay (R8); the count of draws stays too, so that the draws after a
load are fresh ones (log entry 3). -/
def hostLoad (buf : List Byte) (s : State) : Host.Outcome State Fault Refusal :=
  if Image.wellFormed buf then
    .next (({ State.reset with params := s.params, draws := s.draws } : State).storeBytes Config.progBase buf)
  else .refused .loadTooLarge

/-- The frame-buffer snapshot (R134): 2048 cells, row by row, one byte 0 or 1 each; reading changes nothing. -/
def snapshot (s : State) : List Byte := (s.fb.toList.map (fun row => row.toList.map flagByte)).flatten

end Sys2Proof.Machine
end

