-- ==== Sys2Proof/Safety.lean ====
section
/-! DEFINITION. The terms in which claims are made: what an outcome leaves unchanged, which registers an instruction may write, the
invariant of the reachable states, safe runs (spec R151) and final states (R185). -/

namespace Sys2Proof.Machine

/-! ### Frames -/

/-- Every general register outside `xs` is unchanged. -/
def SameRegsExcept (xs : List Reg) (s t : State) : Prop := ∀ r : Reg, r ∉ xs → t.reg r = s.reg r

/-- Stack pointer and all 16 slots unchanged. -/
def SameStack (s t : State) : Prop := t.sp = s.sp ∧ ∀ k : Fin 16, t.slot k = s.slot k

/-- Both timers unchanged. -/
def SameTimers (s t : State) : Prop := t.dt = s.dt ∧ t.st = s.st

/-- Every byte of memory reads as before. -/
def SameMem (s t : State) : Prop := ∀ a : Nat, t.byteAt a = s.byteAt a

/-- Every byte of memory outside the `n` bytes from `base` on reads as before. -/
def SameMemExcept (base n : Nat) (s t : State) : Prop := ∀ a : Nat, ¬ (base ≤ a ∧ a < base + n) → t.byteAt a = s.byteAt a

/-- Every cell of the frame buffer unchanged. -/
def SameFb (s t : State) : Prop := ∀ (r : Fin 32) (c : Fin 64), t.cell r c = s.cell r c

/-- The model's own fields unchanged. -/
def SameModel (s t : State) : Prop := t.params = s.params ∧ t.draws = s.draws ∧ t.event = s.event

/-- The frame of an instruction that works on registers only: outside `xs`, and but for `PC`, nothing changes. -/
def OnlyRegsChange (xs : List Reg) (s t : State) : Prop :=
  SameRegsExcept xs s t ∧ t.i = s.i ∧ SameStack s t ∧ SameTimers s t ∧ SameMem s t ∧ SameFb s t ∧ SameModel s t

/-- The frame of an instruction that sets `I`: but for `I` and `PC`, nothing changes. -/
def OnlyIndexChanges (s t : State) : Prop :=
  SameRegsExcept [] s t ∧ SameStack s t ∧ SameTimers s t ∧ SameMem s t ∧ SameFb s t ∧ SameModel s t

/-- The frame of an instruction that stores: but for the `n` bytes from `base` on, and `PC`, nothing changes. -/
def OnlyBytesChange (base n : Nat) (s t : State) : Prop :=
  SameRegsExcept [] s t ∧ t.i = s.i ∧ SameStack s t ∧ SameTimers s t ∧ SameMemExcept base n s t ∧ SameFb s t ∧ SameModel s t

/-- The general registers an instruction may write: the column "written by" of R20 read by instruction, the flag included
(R23). -/
def Instr.writtenRegs : Instr → List Reg
  | .ldImm x _ | .addImm x _ | .rnd x _ | .ldReg x _ | .or x _ | .and x _ | .xor x _ | .getdt x => [x]
  | .addReg x _ | .sub x _ | .shr x _ | .subn x _ | .shl x _ => [x, VF]
  | .drw _ _ _ => [VF]
  | .load x => (List.finRange 16).filter (· ≤ x)
  | .cls | .ret | .jmp _ | .call _ | .seImm _ _ | .sneImm _ _ | .seReg _ _ | .sneReg _ _ | .ldi _ | .jmp0 _
  | .skp _ | .sknp _ | .waitkey _ | .setdt _ | .setst _ | .addi _ | .font _ | .bcd _ | .dump _ => []

/-- What address `a` reads as once the `len` bytes `stored 0`, `stored 1`, ... stand at `I` on (R124). -/
def State.overlaid (s : State) (len : Nat) (stored : Nat → Byte) (a : Nat) : Byte :=
  if s.i.toNat ≤ a ∧ a < s.i.toNat + len then stored (a - s.i.toNat) else s.byteAt a

/-! ### Encodings -/

/-- Every opcode with `op & mask = value` decodes to the instruction `build op` (R65, R66). -/
def Selected (mask value : Word) (build : Word → Instr) : Prop :=
  ∀ op : Word, op &&& mask = value → decodeOp op = some (build op)

/-! ### The sprite of a draw (R131) -/

/-- Sprite row `row` has a set bit that lands on cell `(r, c)`: bit `7 - col` of the byte at `I + row`, drawn at
`((V[y] + row) mod 32, (V[x] + col) mod 64)`. -/
def SpriteCovers (x y : Reg) (n : BitVec 4) (s : State) (r : Fin 32) (c : Fin 64) : Prop :=
  ∃ row col : Nat, row < n.toNat ∧ col < 8 ∧ (s.byteAt (s.i.toNat + row)).getLsbD (7 - col) = true ∧
    ((s.reg y).toNat + row) % 32 = r.val ∧ ((s.reg x).toNat + col) % 64 = c.val

/-! ### Runs -/

/-- The instruction the next cycle executes, where fetch and decode succeed. -/
def nextInstr (s : State) : Option Instr :=
  match fetch s with
  | .ok op => decodeOp op
  | .error _ => none

/-- A run of `n` cycles in which none faults (R151). -/
def SafeFor (n : Nat) (s : State) : Prop := ∃ t, Host.Core.run core n s = .next t

/-- The invariant of every reachable state: memory is in its canonical form (every cell below 4096), no stack slot holds
more than 4096 (R90), and `PC` is at most `0x10FE` (R27). -/
structure State.Inv (s : State) : Prop where
  memWf : Memory.wf s.params.font s.mem = true
  slotLe : ∀ k : Fin 16, (s.slot k).toNat ≤ 4096
  pcLe : s.pc.toNat ≤ 0x10FE

/-- The spec's own definition of a final state (R185): a jump to its own address, with nothing left to count down. -/
def State.Final (s : State) : Prop :=
  (∃ nnn : BitVec 12, nextInstr s = some (.jmp nnn) ∧ nnn.toNat = s.pc.toNat) ∧
  s.st = 0 ∧ (s.params.dtCountdown = .perCycle → s.dt = 0)

end Sys2Proof.Machine
end

