-- ==== Sys2Proof/Certificates/Slice0/Obligations.lean ====
section
/-! DEFINITION. The statements for the provers, in the order of OBLIGATIONS.json.  Each docstring names the rule of the spec it
formalises; where a clause rests on a choice the spec marks as its own, the docstring names the decision.  The log entry of each
decision: D1, D2: 8; D3, D4: 9; D5: 10; D6: 11; D7: 12; D8: 13; D9: 14; D10: 15; D11: 16; D12: 17; D13: 4; D14: 3; D15: 2;
D16: 6, 7; D17: 18; D18: 19; D19: 5, 26; D20: 25; D22: 20; D23: 21; D24: 22; D25: 23; D26: 24. -/

open Sys2Proof Sys2Proof.Machine

/-! ### Encoding -/

/-- R71: decoding the bytes of any instruction, whatever follows them, returns that instruction with every field. -/
def Obligations.DecodeOfEncodeIsTheInstr : Prop :=
  ∀ (i : Instr) (rest : List Byte), decode (encodeBytes i ++ rest) = .ok i

/-- R71: an opcode that decodes is the one encoding of what it decodes to; no bit of it is dropped. -/
def Obligations.EncodeOfDecodeIsTheOpcode : Prop :=
  ∀ (op : Word) (i : Instr), decodeOp op = some i → encode i = op

/-- R65: no opcode is selected by two rows of the map. -/
def Obligations.OpcodeMapRowsNeverOverlap : Prop :=
  opcodeMap.length = 34 ∧ opcodeMap.Pairwise (fun r q => ∀ op : Word, ¬ (r.selects op = true ∧ q.selects op = true))

/-- R69 (decisions D3, D4): the decoder rejects exactly the illegal values, listed class by class in `Opcode.legal`. -/
def Obligations.DecodeRejectsExactlyTheIllegalOpcodes : Prop :=
  ∀ op : Word, decodeOp op = none ↔ Opcode.legal op = false

/-- 95_test_vectors.md S1, V-DE-8 to V-DE-10 and the worked examples of R92, R102, R111, R120 and R145: these bytes decode
to these instructions.  That 8010 is ldReg, 8AB6 shr and FE65 load rests on the pairing of patterns with operations that
the spec takes from general knowledge (N3, G3): PRESUMED, log entry 27; that 8AB6 is legal with its `y` is decision D5. -/
def Obligations.WorkedExampleBytesDecode : Prop :=
  decode [0x00, 0xE0] = .ok .cls ∧ decode [0x50, 0x10] = .ok (.seReg 0 1) ∧ decode [0x30, 0x14] = .ok (.seImm 0 0x14) ∧
  decode [0x90, 0x10] = .ok (.sneReg 0 1) ∧ decode [0x40, 0x14] = .ok (.sneImm 0 0x14) ∧
  decode [0x12, 0x00] = .ok (.jmp 0x200) ∧ decode [0x22, 0x08] = .ok (.call 0x208) ∧
  decode [0x80, 0x10] = .ok (.ldReg 0 1) ∧ decode [0x8A, 0xB6] = .ok (.shr 0xA 0xB) ∧
  decode [0xDA, 0xBC] = .ok (.drw 0xA 0xB 12) ∧ decode [0xC0, 0x0F] = .ok (.rnd 0 0x0F) ∧
  decode [0xA3, 0x00] = .ok (.ldi 0x300) ∧ decode [0xFE, 0x65] = .ok (.load 0xE) ∧ decode [0xF0, 0x18] = .ok (.setst 0)

/-! ### The cycle -/

/-- R80: a cycle runs `exec` of the decoded instruction on the state, then the timer steps, the event and the next draw;
a fault of `exec` is the cycle's.  The delay step rests on decisions D13 (the parameter, log entry 4) and D24 (after execute,
log entry 22).  The event and the draw counter are fields of the model (log entries 3, 5; the event's form is D19's). -/
def Obligations.StepRunsTheDecodedInstr : Prop :=
  ∀ (s : State) (i : Instr), s.pc.toNat ≤ 4094 →
    decode [s.byteAt s.pc.toNat, s.byteAt (s.pc.toNat + 1)] = .ok i →
    (∀ t, exec i s = .next t → ∃ u, step s = .next u ∧
      SameRegsExcept [] t u ∧ u.i = t.i ∧ u.pc = t.pc ∧ SameStack t u ∧ SameMem t u ∧ SameFb t u ∧
      u.params = t.params ∧ u.draws = t.draws + 1 ∧
      u.dt = (if t.params.dtCountdown = .perCycle ∧ t.dt ≠ 0 then t.dt - 1 else t.dt) ∧
      u.st = (if t.st = 0 then 0 else t.st - 1) ∧
      u.event = some (if t.st = 0 then .executed (opcodeOf (s.byteAt s.pc.toNat) (s.byteAt (s.pc.toNat + 1))) else .audio)) ∧
    (∀ f, exec i s = .fault f → step s = .fault f)

/-- R40: the byte at `PC` is bits 15..8 of the opcode, the byte at `PC + 1` bits 7..0; the encoder emits the same order. -/
def Obligations.FetchIsBigEndian : Prop :=
  (∀ s : State, s.pc.toNat ≤ 4094 → ∃ op : Word, fetch s = .ok op ∧
    op.toNat = (s.byteAt s.pc.toNat).toNat * 256 + (s.byteAt (s.pc.toNat + 1)).toNat ∧
    op.extractLsb 15 8 = s.byteAt s.pc.toNat ∧ op.extractLsb 7 0 = s.byteAt (s.pc.toNat + 1)) ∧
  (∀ i : Instr, ∃ hi lo : Byte, encodeBytes i = [hi, lo] ∧ (encode i).toNat = hi.toNat * 256 + lo.toNat)

/-- R152 (decision D18; D12 for the name and the recorded value): with `PC > 4094` the cycle is the fault `FetchOutOfBounds(PC)`. -/
def Obligations.StepFaultsWhenFetchIsOutOfBounds : Prop :=
  ∀ s : State, 4094 < s.pc.toNat → step s = .fault (.fetchOutOfBounds s.pc)

/-- R153 (with the illegal values of R69, decisions D3, D4; D12 for the name and the recorded values): a fetched illegal
opcode is the fault `DecodeFailure(op, PC)`, whatever the rest of the state. -/
def Obligations.StepFaultsOnAnIllegalOpcode : Prop :=
  ∀ s : State, s.pc.toNat ≤ 4094 →
    Opcode.legal (opcodeOf (s.byteAt s.pc.toNat) (s.byteAt (s.pc.toNat + 1))) = false →
    step s = .fault (.decodeFailure (opcodeOf (s.byteAt s.pc.toNat) (s.byteAt (s.pc.toNat + 1))) s.pc)

/-- R86: if `ST` is above 0 after execute it falls by exactly 1 and the cycle reports `Audio`; otherwise it stays 0 and the
cycle reports the opcode that ran.  That the report stands in the field `event` of the next state is the model's choice
(log entry 5; the event's form is decision D19). -/
def Obligations.SoundTimerStepFollowsExecute : Prop :=
  ∀ (s u : State), step s = .next u → ∃ (op : Word) (i : Instr) (t : State),
    fetch s = .ok op ∧ decodeOp op = some i ∧ exec i s = .next t ∧
    ((0 < t.st.toNat ∧ u.st.toNat + 1 = t.st.toNat ∧ u.event = some .audio) ∨
     (t.st = 0 ∧ u.st = 0 ∧ u.event = some (.executed op)))

/-- R85, R163 (decisions D13, D24; log entries 4, 22): under `per_cycle` a `DT` above 0 after execute falls by 1,
whatever `ST` is; under `off` the cycle leaves it alone. -/
def Obligations.DelayTimerStepObeysTheParameter : Prop :=
  ∀ (s u : State), step s = .next u → ∃ (i : Instr) (t : State),
    nextInstr s = some i ∧ exec i s = .next t ∧
    (s.params.dtCountdown = .perCycle → u.dt.toNat = t.dt.toNat - 1) ∧
    (s.params.dtCountdown = .off → u.dt = t.dt)

/-- R145: setting `ST` to `k` yields exactly `k` consecutive `Audio` cycles, the setting cycle included, provided no later
Fx18 intervenes; after `n` cycles `ST` is `k - n`, and never below 0.  The report is read from the model's field `event` (log
entry 5). -/
def Obligations.SettingSoundTimerGivesThatManyAudioCycles : Prop :=
  ∀ (s t : State) (x : Reg) (n : Nat), nextInstr s = some (.setst x) → 0 < n →
    (∀ (k : Nat) (u : State), 0 < k → k < n → Host.Core.run core k s = .next u → ∀ y : Reg, nextInstr u ≠ some (.setst y)) →
    Host.Core.run core n s = .next t →
    t.st.toNat = (s.reg x).toNat - n ∧ (t.event = some .audio ↔ n ≤ (s.reg x).toNat)

/-- R88: the step is total, a next state with an event or a fault, never a refusal; and `rand` is consulted only by Cxnn:
for every other opcode another draw counter changes nothing but that counter.  The counter stands for the argument `rand`
and the field `event` for the cycle's output: the model's choices (log entries 3 and 5). -/
def Obligations.StepIsTotalAndOnlyRndReadsTheDraw : Prop :=
  (∀ s : State, (∃ t e, step s = .next t ∧ t.event = some e) ∨ (∃ f, step s = .fault f)) ∧
  (∀ (s : State) (d : Nat), (∀ x nn, nextInstr s ≠ some (.rnd x nn)) →
    (∀ t, step s = .next t → step { s with draws := d } = .next { t with draws := d + 1 }) ∧
    (∀ f, step s = .fault f → step { s with draws := d } = .fault f))

/-- R150 (names and recorded values: decisions D11, D12, log entries 16, 17; that all 16 slots are usable, so that call faults
exactly at `SP = 16`: D1, log entry 8): exactly when an instruction faults, with which fault, and
that no other instruction can fault; none is refused. -/
def Obligations.ExecFaultsExactlyAsTheFaultTableSays : Prop :=
  ∀ (i : Instr) (s : State), (∀ r, exec i s ≠ .refused r) ∧ ∀ f : Fault, exec i s = .fault f ↔
    (∃ nnn, i = .call nnn ∧ s.sp.val = 16 ∧ f = .stackOverflow) ∨
    (i = .ret ∧ s.sp.val = 0 ∧ f = .stackUnderflow) ∨
    (∃ x, i = .bcd x ∧ 4096 ≤ s.i.toNat + 2 ∧ f = .memoryOutOfBounds (max s.i.toNat 4096)) ∨
    (∃ x, i = .dump x ∧ 4096 ≤ s.i.toNat + x.val ∧ f = .memoryOutOfBounds (max s.i.toNat 4096)) ∨
    (∃ x, i = .load x ∧ 4096 ≤ s.i.toNat + x.val ∧ f = .memoryOutOfBounds (max s.i.toNat 4096)) ∨
    (∃ x y n, i = .drw x y n ∧ 0 < n.toNat ∧ 4096 ≤ s.i.toNat + n.toNat - 1 ∧ f = .memoryOutOfBounds (max s.i.toNat 4096))

/-! ### Invariants and whole-machine rules -/

/-- R27, R90 and the model's memory form (log entry 6): every cycle keeps the invariant, from every state that has it.  The
bound on the slots rests on decision D2 (call pushes the address after itself, log entry 8), the bound on `PC` also on D22
(jmp0's sum is not masked, log entry 20), the cells staying below 4096 on D11 (log entry 16). -/
def Obligations.StepKeepsTheInvariant : Prop :=
  ∀ s t : State, s.Inv → step s = .next t → t.Inv

/-- R36: the reset state has the invariant.  That the slots reset to 0 is decision D16 (log entry 7); the form of memory is the
model's (log entry 6). -/
def Obligations.ResetHasTheInvariant : Prop := State.reset.Inv

/-- R182: an accepted load of any buffer, from any state whatever, gives a state with the invariant.  That Load clears the
slots is decision D16 (log entry 7); that a buffer beyond memory is refused is D17 (log entry 18); the form of memory is
the model's (log entry 6). -/
def Obligations.LoadEstablishesTheInvariant : Prop :=
  ∀ (buf : List Byte) (s t : State), hostLoad buf s = .next t → t.Inv

/-- The column "written by" of R20, and R23, R34: only the instructions named there write each piece of state.  (Its reset
column and the fields of the model's own are no part of the rule: log entries 1, 3, 5.)  It rests on these decisions: D5
(the shifts leave `V[y]`, log entry 10), D7 (7xnn leaves `VF`, log entry 12), D9 (the memory instructions and the draw leave
`I`, log entry 14), D25 (the key stubs leave `V[x]`, log entry 23), D26 (the logic operations leave `VF`, log entry 24). -/
def Obligations.OnlyTheNamedInstrsWriteEachStatePiece : Prop :=
  ∀ (i : Instr) (s t : State), exec i s = .next t →
    SameRegsExcept (Instr.writtenRegs i) s t ∧
    ((∀ nnn, i ≠ .ldi nnn) → (∀ x, i ≠ .addi x) → (∀ x, i ≠ .font x) → t.i = s.i) ∧
    ((∀ nnn, i ≠ .call nnn) → i ≠ .ret → t.sp = s.sp) ∧
    ((∀ nnn, i ≠ .call nnn) → ∀ k : Fin 16, t.slot k = s.slot k) ∧
    ((∀ x, i ≠ .setdt x) → t.dt = s.dt) ∧ ((∀ x, i ≠ .setst x) → t.st = s.st) ∧
    ((∀ x, i ≠ .bcd x) → (∀ x, i ≠ .dump x) → SameMem s t) ∧
    (i ≠ .cls → (∀ x y n, i ≠ .drw x y n) → SameFb s t) ∧ SameModel s t

/-- R142, R146, R164: no instruction reads `ST`.  Another value of it changes no outcome, but that it is still there
afterwards, unless Fx18 overwrites it. -/
def Obligations.NoInstrReadsTheSoundTimer : Prop :=
  ∀ (i : Instr) (s : State) (b : Byte),
    ((∃ x, i = .setst x) → exec i { s with st := b } = exec i s) ∧
    ((∀ x, i ≠ .setst x) → ∀ t, exec i s = .next t → exec i { s with st := b } = .next { t with st := b }) ∧
    (∀ f, exec i s = .fault f → exec i { s with st := b } = .fault f)

/-! ### Control flow -/

/-- R90 (decisions D1: `SP` counts occupied slots; D2: ret adds nothing to the popped value): with a call
outstanding, ret pops the topmost slot into `PC`; the slot keeps its value. -/
def Obligations.RetResumesAtThePoppedAddress : Prop :=
  Selected 0xFFFF 0x00EE (fun _ => .ret) ∧
  ∀ (s : State) (k : Fin 16), s.sp.val = k.val + 1 → ∃ t, exec .ret s = .next t ∧
    t.pc = s.slot k ∧ t.sp.val = k.val ∧ (∀ j : Fin 16, t.slot j = s.slot j) ∧
    SameRegsExcept [] s t ∧ t.i = s.i ∧ SameTimers s t ∧ SameMem s t ∧ SameFb s t ∧ SameModel s t

/-- R155: `StackUnderflow` is raised by 00EE when `SP = 0`, a return with no call outstanding, and by nothing else. -/
def Obligations.StackUnderflowIsRetWithNoCallOutstanding : Prop :=
  (∀ s : State, s.sp.val = 0 → exec .ret s = .fault .stackUnderflow) ∧
  (∀ (i : Instr) (s : State), exec i s = .fault .stackUnderflow → i = .ret ∧ s.sp.val = 0)

/-- R91: jmp sets `PC` to the zero-extended address and changes nothing else. -/
def Obligations.JmpSetsPcToTheAddress : Prop :=
  Selected 0xF000 0x1000 (fun op => .jmp (op.extractLsb 11 0)) ∧
  ∀ (nnn : BitVec 12) (s : State), ∃ t, exec (.jmp nnn) s = .next t ∧ t.pc.toNat = nnn.toNat ∧ OnlyRegsChange [] s t

/-- R92 (decisions D1, D2: `SP` counts occupied slots, the address after the call is pushed): with a free slot, call stores
`PC + 2` there, counts it, and jumps. -/
def Obligations.CallPushesTheNextAddressAndJumps : Prop :=
  Selected 0xF000 0x2000 (fun op => .call (op.extractLsb 11 0)) ∧
  ∀ (nnn : BitVec 12) (s : State) (k : Fin 16), s.sp.val = k.val → ∃ t, exec (.call nnn) s = .next t ∧
    t.slot k = s.pc + 2 ∧ t.sp.val = k.val + 1 ∧ t.pc.toNat = nnn.toNat ∧
    (∀ j : Fin 16, j ≠ k → t.slot j = s.slot j) ∧
    SameRegsExcept [] s t ∧ t.i = s.i ∧ SameTimers s t ∧ SameMem s t ∧ SameFb s t ∧ SameModel s t

/-- R154 (decision D1): `StackOverflow` is raised by 2nnn when all 16 slots are occupied, and by nothing else. -/
def Obligations.StackOverflowIsCallWithAllSlotsOccupied : Prop :=
  (∀ (nnn : BitVec 12) (s : State), s.sp.val = 16 → exec (.call nnn) s = .fault .stackOverflow) ∧
  (∀ (i : Instr) (s : State), exec i s = .fault .stackOverflow → (∃ nnn, i = .call nnn) ∧ s.sp.val = 16)

/-- R93, R94: the immediate skips advance `PC` by 4 iff `V[x] = nn` (3xnn), iff `V[x] != nn` (4xnn), else by 2. -/
def Obligations.ImmediateSkipsAdvanceByFourOrTwo : Prop :=
  Selected 0xF000 0x3000 (fun op => .seImm (op.extractLsb 11 8).toFin (op.extractLsb 7 0)) ∧
  Selected 0xF000 0x4000 (fun op => .sneImm (op.extractLsb 11 8).toFin (op.extractLsb 7 0)) ∧
  ∀ (x : Reg) (nn : BitVec 8) (s : State),
    (∃ t, exec (.seImm x nn) s = .next t ∧ t.pc = s.pc + (if (s.reg x).toNat = nn.toNat then 4 else 2) ∧
      OnlyRegsChange [] s t) ∧
    (∃ t, exec (.sneImm x nn) s = .next t ∧ t.pc = s.pc + (if (s.reg x).toNat = nn.toNat then 2 else 4) ∧
      OnlyRegsChange [] s t)

/-- R95, R96: the register skips advance `PC` by 4 iff `V[x] = V[y]` (5xy0), iff `V[x] != V[y]` (9xy0), else by 2; a non-zero
low nibble never reaches them (R69 by decision D4: the patterns are exact; log entry 9). -/
def Obligations.RegisterSkipsAdvanceByFourOrTwo : Prop :=
  Selected 0xF00F 0x5000 (fun op => .seReg (op.extractLsb 11 8).toFin (op.extractLsb 7 4).toFin) ∧
  Selected 0xF00F 0x9000 (fun op => .sneReg (op.extractLsb 11 8).toFin (op.extractLsb 7 4).toFin) ∧
  (∀ op : Word, (op.toNat / 4096 = 5 ∨ op.toNat / 4096 = 9) → op.toNat % 16 ≠ 0 → decodeOp op = none) ∧
  ∀ (x y : Reg) (s : State),
    (∃ t, exec (.seReg x y) s = .next t ∧ t.pc = s.pc + (if (s.reg x).toNat = (s.reg y).toNat then 4 else 2) ∧
      OnlyRegsChange [] s t) ∧
    (∃ t, exec (.sneReg x y) s = .next t ∧ t.pc = s.pc + (if (s.reg x).toNat = (s.reg y).toNat then 2 else 4) ∧
      OnlyRegsChange [] s t)

/-- R97 (decision D22: the sum is not masked): jmp0 sets `PC` to `nnn + V0`, exactly. -/
def Obligations.OffsetJumpAddsRegisterZeroUnmasked : Prop :=
  Selected 0xF000 0xB000 (fun op => .jmp0 (op.extractLsb 11 0)) ∧
  ∀ (nnn : BitVec 12) (s : State), ∃ t, exec (.jmp0 nnn) s = .next t ∧
    t.pc.toNat = nnn.toNat + (s.reg 0).toNat ∧ OnlyRegsChange [] s t

/-! ### Registers and ALU -/

/-- R100 (decision D7): ld_imm writes the byte to `V[x]`. -/
def Obligations.LdImmWritesTheByte : Prop :=
  Selected 0xF000 0x6000 (fun op => .ldImm (op.extractLsb 11 8).toFin (op.extractLsb 7 0)) ∧
  ∀ (x : Reg) (nn : BitVec 8) (s : State), ∃ t, exec (.ldImm x nn) s = .next t ∧
    t.reg x = nn ∧ t.pc = s.pc + 2 ∧ OnlyRegsChange [x] s t

/-- R101 (decision D7): add_imm adds modulo 256, and `VF` is written only as the destination. -/
def Obligations.AddImmWrapsWithoutFlag : Prop :=
  Selected 0xF000 0x7000 (fun op => .addImm (op.extractLsb 11 8).toFin (op.extractLsb 7 0)) ∧
  ∀ (x : Reg) (nn : BitVec 8) (s : State), ∃ t, exec (.addImm x nn) s = .next t ∧
    (t.reg x).toNat = ((s.reg x).toNat + nn.toNat) % 256 ∧ t.pc = s.pc + 2 ∧ OnlyRegsChange [x] s t

/-- R102: ld_reg copies `V[y]` to `V[x]`.  That 8xy0 is the register move: PRESUMED, log entry 27. -/
def Obligations.LdRegCopiesTheRegister : Prop :=
  Selected 0xF00F 0x8000 (fun op => .ldReg (op.extractLsb 11 8).toFin (op.extractLsb 7 4).toFin) ∧
  ∀ (x y : Reg) (s : State), ∃ t, exec (.ldReg x y) s = .next t ∧
    t.reg x = s.reg y ∧ t.pc = s.pc + 2 ∧ OnlyRegsChange [x] s t

/-- R103, R104, R105 (decision D26: `VF` is not written as a flag): or, and, xor work bit by bit.
Which of 8xy1, 8xy2, 8xy3 is which: PRESUMED, log entry 27. -/
def Obligations.LogicInstrsWorkBitByBitWithoutFlag : Prop :=
  Selected 0xF00F 0x8001 (fun op => .or (op.extractLsb 11 8).toFin (op.extractLsb 7 4).toFin) ∧
  Selected 0xF00F 0x8002 (fun op => .and (op.extractLsb 11 8).toFin (op.extractLsb 7 4).toFin) ∧
  Selected 0xF00F 0x8003 (fun op => .xor (op.extractLsb 11 8).toFin (op.extractLsb 7 4).toFin) ∧
  ∀ (x y : Reg) (s : State),
    (∃ t, exec (.or x y) s = .next t ∧
      (∀ b < 8, (t.reg x).getLsbD b = ((s.reg x).getLsbD b || (s.reg y).getLsbD b)) ∧
      t.pc = s.pc + 2 ∧ OnlyRegsChange [x] s t) ∧
    (∃ t, exec (.and x y) s = .next t ∧
      (∀ b < 8, (t.reg x).getLsbD b = ((s.reg x).getLsbD b && (s.reg y).getLsbD b)) ∧
      t.pc = s.pc + 2 ∧ OnlyRegsChange [x] s t) ∧
    (∃ t, exec (.xor x y) s = .next t ∧
      (∀ b < 8, (t.reg x).getLsbD b = ((s.reg x).getLsbD b != (s.reg y).getLsbD b)) ∧
      t.pc = s.pc + 2 ∧ OnlyRegsChange [x] s t)

/-- R106 (with `x = 15`: R24, decision D6): add_reg writes the sum modulo 256 and then the carry to `VF`. -/
def Obligations.AddRegWritesSumThenCarry : Prop :=
  Selected 0xF00F 0x8004 (fun op => .addReg (op.extractLsb 11 8).toFin (op.extractLsb 7 4).toFin) ∧
  ∀ (x y : Reg) (s : State), ∃ t, exec (.addReg x y) s = .next t ∧
    (x ≠ VF → (t.reg x).toNat = ((s.reg x).toNat + (s.reg y).toNat) % 256) ∧
    (t.reg VF).toNat = (if 255 < (s.reg x).toNat + (s.reg y).toNat then 1 else 0) ∧
    t.pc = s.pc + 2 ∧ OnlyRegsChange [x, VF] s t

/-- R107 (with `x = 15`: R24, decision D6): sub writes `V[x] - V[y]` modulo 256 and then the borrow to `VF`.
That 8xy5, of the two subtractions, is this ordering: PRESUMED, log entry 27. -/
def Obligations.SubWritesDifferenceThenBorrow : Prop :=
  Selected 0xF00F 0x8005 (fun op => .sub (op.extractLsb 11 8).toFin (op.extractLsb 7 4).toFin) ∧
  ∀ (x y : Reg) (s : State), ∃ t, exec (.sub x y) s = .next t ∧
    (x ≠ VF → (t.reg x).toNat = ((s.reg x).toNat + 256 - (s.reg y).toNat) % 256) ∧
    (t.reg VF).toNat = (if (s.reg x).toNat < (s.reg y).toNat then 1 else 0) ∧
    t.pc = s.pc + 2 ∧ OnlyRegsChange [x, VF] s t

/-- R109 (with `x = 15`: R24, decision D6): subn writes `V[y] - V[x]` modulo 256 to `V[x]` and then the borrow to `VF`.
That 8xy7, of the two subtractions, is this ordering: PRESUMED, log entry 27. -/
def Obligations.SubnWritesReverseDifferenceThenBorrow : Prop :=
  Selected 0xF00F 0x8007 (fun op => .subn (op.extractLsb 11 8).toFin (op.extractLsb 7 4).toFin) ∧
  ∀ (x y : Reg) (s : State), ∃ t, exec (.subn x y) s = .next t ∧
    (x ≠ VF → (t.reg x).toNat = ((s.reg y).toNat + 256 - (s.reg x).toNat) % 256) ∧
    (t.reg VF).toNat = (if (s.reg y).toNat < (s.reg x).toNat then 1 else 0) ∧
    t.pc = s.pc + 2 ∧ OnlyRegsChange [x, VF] s t

/-- R108, R110 (decisions D5: `V[x]` in place, `V[y]` ignored; D6 for `x = 15`): the shifts move `V[x]` by one position and
put the bit shifted out in `VF`.  That 8xy6 is the right and 8xyE the left shift: PRESUMED, log entry 27. -/
def Obligations.ShiftsWriteResultThenBitShiftedOut : Prop :=
  Selected 0xF00F 0x8006 (fun op => .shr (op.extractLsb 11 8).toFin (op.extractLsb 7 4).toFin) ∧
  Selected 0xF00F 0x800E (fun op => .shl (op.extractLsb 11 8).toFin (op.extractLsb 7 4).toFin) ∧
  ∀ (x y : Reg) (s : State),
    (∃ t, exec (.shr x y) s = .next t ∧ (x ≠ VF → (t.reg x).toNat = (s.reg x).toNat / 2) ∧
      (t.reg VF).toNat = (s.reg x).toNat % 2 ∧ t.pc = s.pc + 2 ∧ OnlyRegsChange [x, VF] s t) ∧
    (∃ t, exec (.shl x y) s = .next t ∧ (x ≠ VF → (t.reg x).toNat = (s.reg x).toNat * 2 % 256) ∧
      (t.reg VF).toNat = (s.reg x).toNat / 128 ∧ t.pc = s.pc + 2 ∧ OnlyRegsChange [x, VF] s t)

/-- R111 (decision D14; log entry 3): rnd writes this cycle's draw under the mask.  The draw is a free value: the statement
holds whatever it is. -/
def Obligations.RndWritesTheMaskedDraw : Prop :=
  Selected 0xF000 0xC000 (fun op => .rnd (op.extractLsb 11 8).toFin (op.extractLsb 7 0)) ∧
  ∀ (x : Reg) (nn : BitVec 8) (s : State), ∃ t, exec (.rnd x nn) s = .next t ∧
    (∀ b < 8, (t.reg x).getLsbD b = ((Config.rand s.draws).getLsbD b && nn.getLsbD b)) ∧
    t.pc = s.pc + 2 ∧ OnlyRegsChange [x] s t

/-! ### Index register and memory -/

/-- R120: ldi sets `I` to the zero-extended address. -/
def Obligations.LdiSetsIndexToTheAddress : Prop :=
  Selected 0xF000 0xA000 (fun op => .ldi (op.extractLsb 11 0)) ∧
  ∀ (nnn : BitVec 12) (s : State), ∃ t, exec (.ldi nnn) s = .next t ∧
    t.i.toNat = nnn.toNat ∧ t.pc = s.pc + 2 ∧ OnlyIndexChanges s t

/-- R121 (decision D10: modulo 65536): addi adds `V[x]` to `I` and writes no flag.
That Fx1E is add-to-index: PRESUMED, log entry 27. -/
def Obligations.AddiAddsToIndexModulo65536 : Prop :=
  Selected 0xF0FF 0xF01E (fun op => .addi (op.extractLsb 11 8).toFin) ∧
  ∀ (x : Reg) (s : State), ∃ t, exec (.addi x) s = .next t ∧
    t.i.toNat = (s.i.toNat + (s.reg x).toNat) % 65536 ∧ t.pc = s.pc + 2 ∧ OnlyIndexChanges s t

/-- R122 (decision D10: the whole register): font sets `I` to `V[x] * 5`, exactly.
That Fx29 is the glyph address: PRESUMED, log entry 27. -/
def Obligations.FontSetsIndexToFiveTimesTheRegister : Prop :=
  Selected 0xF0FF 0xF029 (fun op => .font (op.extractLsb 11 8).toFin) ∧
  ∀ (x : Reg) (s : State), ∃ t, exec (.font x) s = .next t ∧
    t.i.toNat = (s.reg x).toNat * 5 ∧ t.pc = s.pc + 2 ∧ OnlyIndexChanges s t

/-- R123, R124 (decisions D9, D11): in bounds, bcd stores the three decimal digits of `V[x]` at `I`, `I + 1`, `I + 2`, and no
other byte; `I` stays.
That Fx33 is store-BCD: PRESUMED, log entry 27. -/
def Obligations.BcdStoresTheThreeDigits : Prop :=
  Selected 0xF0FF 0xF033 (fun op => .bcd (op.extractLsb 11 8).toFin) ∧
  ∀ (x : Reg) (s : State), s.i.toNat + 2 < 4096 → ∃ t, exec (.bcd x) s = .next t ∧
    (t.byteAt s.i.toNat).toNat = (s.reg x).toNat / 100 ∧
    (t.byteAt (s.i.toNat + 1)).toNat = (s.reg x).toNat / 10 % 10 ∧
    (t.byteAt (s.i.toNat + 2)).toNat = (s.reg x).toNat % 10 ∧
    t.pc = s.pc + 2 ∧ OnlyBytesChange (s.elemAddr 0) 3 s t

/-- R125, R124 (decisions D9, D11): in bounds, dump stores `V0..Vx` at `I` on, and no other byte; `I` stays.
That Fx55 is the dump: PRESUMED, log entry 27. -/
def Obligations.DumpStoresTheRegistersInOrder : Prop :=
  Selected 0xF0FF 0xF055 (fun op => .dump (op.extractLsb 11 8).toFin) ∧
  ∀ (x : Reg) (s : State), s.i.toNat + x.val < 4096 → ∃ t, exec (.dump x) s = .next t ∧
    (∀ k : Reg, k ≤ x → t.byteAt (s.i.toNat + k.val) = s.reg k) ∧
    t.pc = s.pc + 2 ∧ OnlyBytesChange (s.elemAddr 0) (x.val + 1) s t

/-- R126, R124 (decisions D9, D11): in bounds, load fills `V0..Vx` from `I` on; the registers above and `I` stay.
That Fx65 is the load: PRESUMED, log entry 27. -/
def Obligations.LoadFillsTheRegistersInOrder : Prop :=
  Selected 0xF0FF 0xF065 (fun op => .load (op.extractLsb 11 8).toFin) ∧
  ∀ (x : Reg) (s : State), s.i.toNat + x.val < 4096 → ∃ t, exec (.load x) s = .next t ∧
    (∀ k : Reg, k ≤ x → t.reg k = s.byteAt (s.i.toNat + k.val)) ∧ (∀ k : Reg, x < k → t.reg k = s.reg k) ∧
    t.pc = s.pc + 2 ∧ t.i = s.i ∧ SameStack s t ∧ SameTimers s t ∧ SameMem s t ∧ SameFb s t ∧ SameModel s t

/-- R156: `MemoryOutOfBounds` is raised by Dxyn when `n > 0` and `I + n - 1 >= 4096`, by Fx33 when `I + 2 >= 4096`, by Fx55
and Fx65 when `I + x >= 4096`; `I` being 4096 or more faults nothing else, and Dxyn with `n = 0` never faults.
That `I + k` does not wrap and that the highest address decides is decision D11 (log entry 16). -/
def Obligations.MemoryInstrsFaultOnlyOutOfBounds : Prop :=
  ∀ (s : State) (i : Instr),
    ((∃ a, exec i s = .fault (.memoryOutOfBounds a)) ↔
      (∃ x y n, i = .drw x y n ∧ 0 < n.toNat ∧ 4096 ≤ s.i.toNat + n.toNat - 1) ∨
      (∃ x, i = .bcd x ∧ 4096 ≤ s.i.toNat + 2) ∨
      (∃ x, i = .dump x ∧ 4096 ≤ s.i.toNat + x.val) ∨ (∃ x, i = .load x ∧ 4096 ≤ s.i.toNat + x.val)) ∧
    (∀ x y, i = .drw x y 0 → ∃ t, exec i s = .next t)

/-! ### Display -/

/-- R130: cls sets every cell to 0 and changes nothing else but `PC`. -/
def Obligations.ClsClearsEveryCell : Prop :=
  Selected 0xFFFF 0x00E0 (fun _ => .cls) ∧
  ∀ s : State, ∃ t, exec .cls s = .next t ∧ (∀ r c, t.cell r c = false) ∧ t.pc = s.pc + 2 ∧
    SameRegsExcept [] s t ∧ t.i = s.i ∧ SameStack s t ∧ SameTimers s t ∧ SameMem s t ∧ SameModel s t

/-- R131, R133 (decisions D8: `VF` starts from 0, coordinates read first; D9: `I` stays, log entry 14; D11: bounds first): in
bounds, drw flips exactly the cells a set sprite bit lands on, coordinates wrapped, and `VF` is 1 iff one of them was 1
before. -/
def Obligations.DrwFlipsTheCoveredCellsAndReportsCollision : Prop :=
  Selected 0xF000 0xD000 (fun op => .drw (op.extractLsb 11 8).toFin (op.extractLsb 7 4).toFin (op.extractLsb 3 0)) ∧
  ∀ (x y : Reg) (n : BitVec 4) (s : State), n.toNat = 0 ∨ s.i.toNat + n.toNat ≤ 4096 →
    ∃ t, exec (.drw x y n) s = .next t ∧
      (∀ r c, SpriteCovers x y n s r c → t.cell r c = !(s.cell r c)) ∧
      (∀ r c, ¬ SpriteCovers x y n s r c → t.cell r c = s.cell r c) ∧
      ((∃ r c, SpriteCovers x y n s r c ∧ s.cell r c = true) → t.reg VF = 1) ∧
      ((∀ r c, SpriteCovers x y n s r c → s.cell r c = false) → t.reg VF = 0) ∧
      t.pc = s.pc + 2 ∧ SameRegsExcept [VF] s t ∧ t.i = s.i ∧ SameStack s t ∧ SameTimers s t ∧ SameMem s t ∧ SameModel s t

/-- R132 (rests on D8): the same draw done twice, with the same coordinates, `I` and sprite bytes, leaves the frame buffer as
it was; if the first found its cells 0 and the sprite has a set bit, the second leaves `VF = 1`; a sprite without a
set bit leaves `VF = 0` both times. -/
def Obligations.DrawingTwiceRestoresTheScreen : Prop :=
  ∀ (x y : Reg) (n : BitVec 4) (s t s' u : State), exec (.drw x y n) s = .next t → exec (.drw x y n) s' = .next u →
    SameFb t s' → s'.reg x = s.reg x → s'.reg y = s.reg y → s'.i = s.i →
    (∀ row < n.toNat, s'.byteAt (s.i.toNat + row) = s.byteAt (s.i.toNat + row)) →
    SameFb s u ∧
    ((∃ r c, SpriteCovers x y n s r c) → (∀ r c, SpriteCovers x y n s r c → s.cell r c = false) → u.reg VF = 1) ∧
    ((∀ row < n.toNat, s.byteAt (s.i.toNat + row) = 0) → t.reg VF = 0 ∧ u.reg VF = 0)

/-! ### Timers and keys -/

/-- R140, R141 (decision D25: nothing but `PC` is written; log entry 23): the key skips never skip, read nothing and change
nothing but `PC`. -/
def Obligations.KeySkipsNeverSkip : Prop :=
  Selected 0xF0FF 0xE09E (fun op => .skp (op.extractLsb 11 8).toFin) ∧
  Selected 0xF0FF 0xE0A1 (fun op => .sknp (op.extractLsb 11 8).toFin) ∧
  ∀ (x : Reg) (s : State),
    (∃ t, exec (.skp x) s = .next t ∧ t.pc = s.pc + 2 ∧ OnlyRegsChange [] s t) ∧
    (∃ t, exec (.sknp x) s = .next t ∧ t.pc = s.pc + 2 ∧ OnlyRegsChange [] s t)

/-- R143 (decision D25: `V[x]` is not written): waitkey never waits and changes nothing but `PC`.
That Fx0A is wait-for-key: PRESUMED, log entry 27. -/
def Obligations.WaitkeyNeverWaits : Prop :=
  Selected 0xF0FF 0xF00A (fun op => .waitkey (op.extractLsb 11 8).toFin) ∧
  ∀ (x : Reg) (s : State), ∃ t, exec (.waitkey x) s = .next t ∧ t.pc = s.pc + 2 ∧ OnlyRegsChange [] s t

/-- R142: getdt copies `DT`, as it stands at execute, to `V[x]`.  That Fx07 is the timer get: PRESUMED, log entry 27. -/
def Obligations.GetdtCopiesTheDelayTimer : Prop :=
  Selected 0xF0FF 0xF007 (fun op => .getdt (op.extractLsb 11 8).toFin) ∧
  ∀ (x : Reg) (s : State), ∃ t, exec (.getdt x) s = .next t ∧
    t.reg x = s.dt ∧ t.pc = s.pc + 2 ∧ OnlyRegsChange [x] s t

/-- R144 (the countdown is D13's parameter, log entry 4, and its place after execute D24, log entry 22): setdt copies
`V[x]` to `DT`; the epilogue of its own cycle already counts the new value down under `per_cycle`, and leaves it under `off`.
That Fx15 sets the delay timer: PRESUMED, log entry 27. -/
def Obligations.SetdtSetsTheDelayTimer : Prop :=
  Selected 0xF0FF 0xF015 (fun op => .setdt (op.extractLsb 11 8).toFin) ∧
  ∀ (x : Reg) (s : State),
    (∃ t, exec (.setdt x) s = .next t ∧ t.dt = s.reg x ∧ t.st = s.st ∧ t.pc = s.pc + 2 ∧
      SameRegsExcept [] s t ∧ t.i = s.i ∧ SameStack s t ∧ SameMem s t ∧ SameFb s t ∧ SameModel s t) ∧
    (nextInstr s = some (.setdt x) → ∃ u, step s = .next u ∧
      (s.params.dtCountdown = .perCycle → u.dt.toNat = (s.reg x).toNat - 1) ∧
      (s.params.dtCountdown = .off → u.dt = s.reg x))

/-- R145 (the event's form is D19's, its place in the state log entry 5): setst copies `V[x]` to `ST`; the epilogue of
its own cycle already sees the new value. -/
def Obligations.SetstSetsTheSoundTimer : Prop :=
  Selected 0xF0FF 0xF018 (fun op => .setst (op.extractLsb 11 8).toFin) ∧
  ∀ (x : Reg) (s : State),
    (∃ t, exec (.setst x) s = .next t ∧ t.st = s.reg x ∧ t.dt = s.dt ∧ t.pc = s.pc + 2 ∧
      SameRegsExcept [] s t ∧ t.i = s.i ∧ SameStack s t ∧ SameMem s t ∧ SameFb s t ∧ SameModel s t) ∧
    (nextInstr s = some (.setst x) → ∃ u, step s = .next u ∧ u.st.toNat = (s.reg x).toNat - 1 ∧
      (0 < (s.reg x).toNat → u.event = some .audio) ∧
      ((s.reg x).toNat = 0 → ∃ op, fetch s = .ok op ∧ u.event = some (.executed op)))

/-! ### Reset, load and the host's reads -/

/-- R182, R36 (decision D16 for `I`, the slots and the rest of memory; log entries 1, 3, 5 for the model's own fields): a load of
a buffer that fits sets every piece of state, whatever it was before. -/
def Obligations.LoadResetsEverythingAndPlacesTheProgram : Prop :=
  ∀ (buf : List Byte) (s : State), buf.length ≤ 3584 → ∃ t, hostLoad buf s = .next t ∧
    (∀ r, t.reg r = 0) ∧ t.i = 0 ∧ t.pc = 0x200 ∧ t.sp = 0 ∧ (∀ k, t.slot k = 0) ∧ t.dt = 0 ∧ t.st = 0 ∧
    (∀ r c, t.cell r c = false) ∧
    (∀ (a : Nat) (h : a < 80), t.byteAt a = s.params.font[a]) ∧
    (∀ (k : Nat) (h : k < buf.length), t.byteAt (0x200 + k) = buf[k]) ∧
    (∀ a : Nat, 80 ≤ a → (a < 0x200 ∨ 0x200 + buf.length ≤ a) → t.byteAt a = 0) ∧
    t.params = s.params ∧ t.draws = s.draws ∧ t.event = none

/-- R183, R160 (decision D17): a longer buffer is refused. -/
def Obligations.LoadOfALongerBufferIsRefused : Prop :=
  ∀ (buf : List Byte) (s : State), 3584 < buf.length → hostLoad buf s = .refused .loadTooLarge

/-- R180 (decisions D16; D3 and D12 for the fault): the reset state is the load of the empty buffer, and a cycle from it
is `DecodeFailure(0x0000, 0x200)`. -/
def Obligations.ResetIsTheEmptyLoadAndFailsToDecode : Prop :=
  hostLoad [] State.reset = .next State.reset ∧ step State.reset = .fault (.decodeFailure 0x0000 0x200)

/-- R134 (decision D23): the snapshot is the 2048 cells in row-major order, one byte 0 or 1 each. -/
def Obligations.SnapshotIsRowMajor : Prop :=
  ∀ s : State, (snapshot s).length = 2048 ∧
    ∀ (r : Fin 32) (c : Fin 64), (snapshot s)[r.val * 64 + c.val]? = some (if s.cell r c then 1 else 0)

/-- R185: from a final state every cycle reports the jump that ran and changes nothing (but the model's count of draws and its
record of the event, log entries 3, 5), and the next state is final again.  What it says of `DT` rests on decisions D13 and
D24. -/
def Obligations.FinalStatesStayAsTheyAre : Prop :=
  ∀ s : State, s.Final → ∃ op : Word, fetch s = .ok op ∧ op.toNat = 0x1000 + s.pc.toNat ∧
    step s = .next { s with draws := s.draws + 1, event := some (.executed op) } ∧
    State.Final { s with draws := s.draws + 1, event := some (.executed op) }

/-- R53 (decision D20; D11: addresses do not wrap): a store is seen by the very next fetch.  After a dump, and
after a bcd, the next fetch reads each of its two bytes from the store where the store covers it (both, one or none), and
as it stood before where it does not.  With `PC` above 4092 the next fetch is out of bounds (StepFaultsWhenFetchIsOutOfBounds). -/
def Obligations.StoredBytesAreFetchedNext : Prop :=
  ∀ (s t : State) (x : Reg), s.pc.toNat ≤ 4092 → step s = .next t →
    (nextInstr s = some (.dump x) →
      let now := s.overlaid (x.val + 1) (fun k => s.reg (Fin.ofNat 16 k))
      fetch t = .ok (opcodeOf (now (s.pc.toNat + 2)) (now (s.pc.toNat + 3)))) ∧
    (nextInstr s = some (.bcd x) →
      let now := s.overlaid 3 (fun k => BitVec.ofNat 8 ((s.reg x).toNat / 10 ^ (2 - k) % 10))
      fetch t = .ok (opcodeOf (now (s.pc.toNat + 2)) (now (s.pc.toNat + 3))))
end

