-- ==== Sys2Proof/Laws/Decode.lean ====
section
/-! SUPPORT. The laws of decoding: fields as numbers, rows that never overlap, and the row that selects an opcode decides its
decoding. -/

namespace Sys2Proof

/-! ### Bytes and fields as numbers -/

theorem opcodeOf_toNat (hi lo : Byte) : (opcodeOf hi lo).toNat = hi.toNat * 256 + lo.toNat := by
  have h1 := hi.isLt; have h2 := lo.isLt
  simp only [opcodeOf, BitVec.toNat_ofNat]
  omega

theorem fieldX_val (op : Word) : (fieldX op).val = op.toNat / 256 % 16 := by
  simp [fieldX, Nat.shiftRight_eq_div_pow]

theorem fieldY_val (op : Word) : (fieldY op).val = op.toNat / 16 % 16 := by
  simp [fieldY, Nat.shiftRight_eq_div_pow]

theorem fieldN_toNat (op : Word) : (fieldN op).toNat = op.toNat % 16 := by simp [fieldN]

theorem fieldNN_toNat (op : Word) : (fieldNN op).toNat = op.toNat % 256 := by simp [fieldNN]

theorem fieldNNN_toNat (op : Word) : (fieldNNN op).toNat = op.toNat % 4096 := by simp [fieldNNN]

/-- The two bytes of an opcode, put together again, are the opcode. -/
theorem opcodeOf_wordBytes (op : Word) : opcodeOf (op.extractLsb 15 8) (op.extractLsb 7 0) = op := by
  apply BitVec.eq_of_toNat_eq
  have h := op.isLt
  simp [opcodeOf_toNat, Nat.shiftRight_eq_div_pow]
  omega

/-! ### Encoded words as numbers -/

theorem regBits_toNat (x : Reg) : (regBits x).toNat = x.val := by
  have := x.isLt
  simp only [regBits, BitVec.toNat_ofNat]; omega

/-- OR of fields that share no bit is addition. -/
theorem or_low (a b k : Nat) (hb : b < 2 ^ k) (ha : a % 2 ^ k = 0) : a ||| b = a + b := by
  obtain ⟨q, rfl⟩ : ∃ q, a = 2 ^ k * q := ⟨a / 2 ^ k, by have := Nat.div_add_mod a (2 ^ k); omega⟩
  rw [Nat.two_pow_add_eq_or_of_lt hb]

theorem encodeA_toNat (c : Nat) (hc : c < 16) (nnn : BitVec 12) :
    (encodeA (BitVec.ofNat 16 (c * 4096)) nnn).toNat = c * 4096 + nnn.toNat := by
  have h := nnn.isLt
  simp only [encodeA, BitVec.toNat_or, BitVec.toNat_ofNat, BitVec.toNat_setWidth]
  rw [Nat.mod_eq_of_lt (by omega), Nat.mod_eq_of_lt (by omega), or_low _ _ 12 (by omega) (by omega)]

theorem encodeXI_toNat (c : Nat) (hc : c < 16) (x : Reg) (nn : BitVec 8) :
    (encodeXI (BitVec.ofNat 16 (c * 4096)) x nn).toNat = c * 4096 + x.val * 256 + nn.toNat := by
  have h := nn.isLt
  have hx := x.isLt
  simp only [encodeXI, BitVec.toNat_or, BitVec.toNat_ofNat, BitVec.toNat_setWidth, BitVec.toNat_shiftLeft, regBits_toNat,
    Nat.shiftLeft_eq]
  rw [Nat.mod_eq_of_lt (a := c * 4096) (by omega), Nat.mod_eq_of_lt (a := x.val * _) (by omega),
    Nat.mod_eq_of_lt (a := nn.toNat) (by omega), or_low (c * 4096) _ 12 (by omega) (by omega),
    or_low (c * 4096 + _) _ 8 (by omega) (by omega)]

theorem encodeXY_toNat (c sub : Nat) (hc : c < 16) (hs : sub < 16) (x y : Reg) :
    (encodeXY (BitVec.ofNat 16 (c * 4096 + sub)) x y).toNat = c * 4096 + x.val * 256 + y.val * 16 + sub := by
  have hx := x.isLt
  have hy := y.isLt
  simp only [encodeXY, BitVec.toNat_or, BitVec.toNat_ofNat, BitVec.toNat_shiftLeft, regBits_toNat, Nat.shiftLeft_eq]
  rw [Nat.mod_eq_of_lt (a := c * 4096 + sub) (by omega), Nat.mod_eq_of_lt (a := x.val * _) (by omega),
    Nat.mod_eq_of_lt (a := y.val * _) (by omega), ← or_low (c * 4096) sub 4 (by omega) (by omega)]
  rw [show c * 4096 ||| sub ||| x.val * 2 ^ 8 ||| y.val * 2 ^ 4 = c * 4096 ||| x.val * 2 ^ 8 ||| y.val * 2 ^ 4 ||| sub by
    ac_rfl]
  rw [or_low (c * 4096) _ 12 (by omega) (by omega), or_low (c * 4096 + _) _ 8 (by omega) (by omega),
    or_low (c * 4096 + _ + _) _ 4 (by omega) (by omega)]
  omega

theorem encodeXYN_toNat (c : Nat) (hc : c < 16) (x y : Reg) (n : BitVec 4) :
    (encodeXYN (BitVec.ofNat 16 (c * 4096)) x y n).toNat = c * 4096 + x.val * 256 + y.val * 16 + n.toNat := by
  have hx := x.isLt
  have hy := y.isLt
  have hn := n.isLt
  simp only [encodeXYN, BitVec.toNat_or, BitVec.toNat_ofNat, BitVec.toNat_setWidth, BitVec.toNat_shiftLeft, regBits_toNat,
    Nat.shiftLeft_eq]
  rw [Nat.mod_eq_of_lt (a := c * 4096) (by omega), Nat.mod_eq_of_lt (a := x.val * _) (by omega),
    Nat.mod_eq_of_lt (a := y.val * _) (by omega), Nat.mod_eq_of_lt (a := n.toNat) (by omega)]
  rw [or_low (c * 4096) _ 12 (by omega) (by omega), or_low (c * 4096 + _) _ 8 (by omega) (by omega),
    or_low (c * 4096 + _ + _) _ 4 (by omega) (by omega)]

theorem encodeX_toNat (c sub : Nat) (hc : c < 16) (hs : sub < 256) (x : Reg) :
    (encodeX (BitVec.ofNat 16 (c * 4096 + sub)) x).toNat = c * 4096 + x.val * 256 + sub := by
  have hx := x.isLt
  simp only [encodeX, BitVec.toNat_or, BitVec.toNat_ofNat, BitVec.toNat_shiftLeft, regBits_toNat, Nat.shiftLeft_eq]
  rw [Nat.mod_eq_of_lt (a := c * 4096 + sub) (by omega), Nat.mod_eq_of_lt (a := x.val * _) (by omega),
    ← or_low (c * 4096) sub 8 (by omega) (by omega)]
  rw [show c * 4096 ||| sub ||| x.val * 2 ^ 8 = c * 4096 ||| x.val * 2 ^ 8 ||| sub by ac_rfl]
  rw [or_low (c * 4096) _ 12 (by omega) (by omega), or_low (c * 4096 + _) _ 8 (by omega) (by omega)]
  omega

/-! ### Masked opcodes as numbers -/

/-- The class mask keeps the high nibble (formats A, XI, XYN). -/
theorem and_F000 (op : Word) : (op &&& 0xF000).toNat = op.toNat / 4096 * 4096 := by
  have h : op &&& (0xF000 : Word) = (op >>> 12) <<< 12 := by
    ext i hi
    interval_cases i <;> simp
  have := op.isLt
  rw [h]
  simp [Nat.shiftRight_eq_div_pow, Nat.shiftLeft_eq]
  omega

theorem and_000F (op : Word) : (op &&& 0x000F).toNat = op.toNat % 16 := by
  rw [BitVec.toNat_and]
  exact Nat.and_two_pow_sub_one_eq_mod op.toNat 4

theorem and_00FF (op : Word) : (op &&& 0x00FF).toNat = op.toNat % 256 := by
  rw [BitVec.toNat_and]
  exact Nat.and_two_pow_sub_one_eq_mod op.toNat 8

/-- The mask of format XY keeps the high and the low nibble. -/
theorem and_F00F (op : Word) : (op &&& 0xF00F).toNat = op.toNat / 4096 * 4096 + op.toNat % 16 := by
  have h : op &&& 0xF00F = (op &&& 0xF000) ||| (op &&& 0x000F) := by
    rw [← BitVec.and_or_distrib_left]; rfl
  rw [h, BitVec.toNat_or, and_F000, and_000F, or_low _ _ 4 (by omega) (by omega)]

/-- The mask of format X keeps the high nibble and the low byte. -/
theorem and_F0FF (op : Word) : (op &&& 0xF0FF).toNat = op.toNat / 4096 * 4096 + op.toNat % 256 := by
  have h : op &&& 0xF0FF = (op &&& 0xF000) ||| (op &&& 0x00FF) := by
    rw [← BitVec.and_or_distrib_left]; rfl
  rw [h, BitVec.toNat_or, and_F000, and_00FF, or_low _ _ 8 (by omega) (by omega)]

/-! ### Rows -/

/-- Two (mask, match) pairs that differ in a bit both masks cover. -/
def Row.apart (r q : Row) : Bool := (r.value ^^^ q.value) &&& r.mask &&& q.mask != 0

/-- Every two rows of the map differ in a bit both masks cover (R65). -/
theorem opcodeMap_apart : opcodeMap.Pairwise (fun r q => r.apart q = true) := by decide

/-- Rows apart never select the same opcode. -/
theorem Row.not_both {r q : Row} (h : r.apart q = true) (op : Word) (hr : r.selects op = true) : q.selects op = false := by
  by_contra hq
  simp only [Bool.not_eq_false, Row.selects, beq_iff_eq] at hr hq
  simp only [Row.apart, bne_iff_ne, ne_eq] at h
  apply h
  rw [← hr, ← hq]
  ext i hi
  simp only [BitVec.getElem_and, BitVec.getElem_xor]
  cases op[i] <;> cases r.mask[i] <;> cases q.mask[i] <;> simp

/-- The row that selects an opcode is the one the search finds. -/
theorem find_row {rows : List Row} (hp : rows.Pairwise (fun r q => r.apart q = true)) {r : Row} (hr : r ∈ rows)
    {op : Word} (h : r.selects op = true) : (rows.find? (·.selects op)) = some r := by
  induction rows with
  | nil => cases hr
  | cons q rest ih =>
    rcases List.mem_cons.mp hr with rfl | hr'
    · simp [h]
    · have hq : q.selects op = false := by
        by_contra hc
        have := Row.not_both ((List.pairwise_cons.mp hp).1 r hr') op (by simpa using hc)
        simp [this] at h
      simp only [List.find?_cons, hq]
      exact ih (List.pairwise_cons.mp hp).2 hr'

/-- A row of the map decides the decoding of every opcode it selects (R65, R82). -/
theorem decodeOp_of_row {r : Row} (hr : r ∈ opcodeMap) {op : Word} (h : op &&& r.mask = r.value) :
    decodeOp op = some (r.build op) := by
  unfold decodeOp
  rw [find_row opcodeMap_apart hr (by simpa [Row.selects] using h)]
  rfl

/-- The same for the `k`-th row of the map, as claims about encodings say it. -/
theorem selected_at {k : Nat} {r : Row} (h : opcodeMap[k]? = some r) : Machine.Selected r.mask r.value r.build :=
  fun _ hop => decodeOp_of_row (List.mem_of_getElem? h) hop

/-- An opcode that decodes was selected by a row of the map. -/
theorem row_of_decodeOp {op : Word} {i : Instr} (h : decodeOp op = some i) :
    ∃ r ∈ opcodeMap, op &&& r.mask = r.value ∧ i = r.build op := by
  unfold decodeOp at h
  simp only [Option.map_eq_some_iff] at h
  obtain ⟨r, hf, rfl⟩ := h
  refine ⟨r, List.mem_of_find?_eq_some hf, ?_, rfl⟩
  simpa [Row.selects] using List.find?_some hf

/-- An opcode does not decode iff no row selects it. -/
theorem decodeOp_none {op : Word} : decodeOp op = none ↔ ∀ r ∈ opcodeMap, op &&& r.mask ≠ r.value := by
  simp [decodeOp, List.find?_eq_none, Row.selects]

end Sys2Proof
end

