-- ==== Sys2Proof/Laws/State.lean ====
section
/-! SUPPORT. One lemma per field per update of `State`, and per accessor, so that no proof unfolds a record update. -/

namespace Sys2Proof.Machine

variable (s : State)

/-! ### `setReg` -/

@[simp] theorem setReg_i (x : Reg) (b : Byte) : (s.setReg x b).i = s.i := rfl
@[simp] theorem setReg_pc (x : Reg) (b : Byte) : (s.setReg x b).pc = s.pc := rfl
@[simp] theorem setReg_sp (x : Reg) (b : Byte) : (s.setReg x b).sp = s.sp := rfl
@[simp] theorem setReg_stack (x : Reg) (b : Byte) : (s.setReg x b).stack = s.stack := rfl
@[simp] theorem setReg_dt (x : Reg) (b : Byte) : (s.setReg x b).dt = s.dt := rfl
@[simp] theorem setReg_st (x : Reg) (b : Byte) : (s.setReg x b).st = s.st := rfl
@[simp] theorem setReg_mem (x : Reg) (b : Byte) : (s.setReg x b).mem = s.mem := rfl
@[simp] theorem setReg_fb (x : Reg) (b : Byte) : (s.setReg x b).fb = s.fb := rfl
@[simp] theorem setReg_params (x : Reg) (b : Byte) : (s.setReg x b).params = s.params := rfl
@[simp] theorem setReg_draws (x : Reg) (b : Byte) : (s.setReg x b).draws = s.draws := rfl
@[simp] theorem setReg_event (x : Reg) (b : Byte) : (s.setReg x b).event = s.event := rfl
@[simp] theorem setReg_slot (x : Reg) (b : Byte) (k : Fin 16) : (s.setReg x b).slot k = s.slot k := rfl
@[simp] theorem setReg_cell (x : Reg) (b : Byte) (r : Fin 32) (c : Fin 64) : (s.setReg x b).cell r c = s.cell r c := rfl
@[simp] theorem setReg_byteAt (x : Reg) (b : Byte) (a : Nat) : (s.setReg x b).byteAt a = s.byteAt a := rfl

/-- A register reads as written, every other as before. -/
theorem reg_setReg (x : Reg) (b : Byte) (r : Reg) : (s.setReg x b).reg r = if r = x then b else s.reg r := by
  unfold State.reg State.setReg
  simp only [Fin.getElem_fin, Vector.getElem_set]
  by_cases h : x = r
  · simp [h]
  · have : x.val ≠ r.val := fun e => h (Fin.ext e)
    simp [this, Ne.symm h]

@[simp] theorem reg_setReg_self (x : Reg) (b : Byte) : (s.setReg x b).reg x = b := by simp [reg_setReg]

/-! ### `setPc` -/

@[simp] theorem setPc_v (w : Word) : (s.setPc w).v = s.v := rfl
@[simp] theorem setPc_i (w : Word) : (s.setPc w).i = s.i := rfl
@[simp] theorem setPc_sp (w : Word) : (s.setPc w).sp = s.sp := rfl
@[simp] theorem setPc_stack (w : Word) : (s.setPc w).stack = s.stack := rfl
@[simp] theorem setPc_dt (w : Word) : (s.setPc w).dt = s.dt := rfl
@[simp] theorem setPc_st (w : Word) : (s.setPc w).st = s.st := rfl
@[simp] theorem setPc_mem (w : Word) : (s.setPc w).mem = s.mem := rfl
@[simp] theorem setPc_fb (w : Word) : (s.setPc w).fb = s.fb := rfl
@[simp] theorem setPc_params (w : Word) : (s.setPc w).params = s.params := rfl
@[simp] theorem setPc_draws (w : Word) : (s.setPc w).draws = s.draws := rfl
@[simp] theorem setPc_event (w : Word) : (s.setPc w).event = s.event := rfl
@[simp] theorem setPc_reg (w : Word) (r : Reg) : (s.setPc w).reg r = s.reg r := rfl
@[simp] theorem setPc_slot (w : Word) (k : Fin 16) : (s.setPc w).slot k = s.slot k := rfl
@[simp] theorem setPc_cell (w : Word) (r : Fin 32) (c : Fin 64) : (s.setPc w).cell r c = s.cell r c := rfl
@[simp] theorem setPc_byteAt (w : Word) (a : Nat) : (s.setPc w).byteAt a = s.byteAt a := rfl
@[simp] theorem setPc_pc (w : Word) : (s.setPc w).pc = w := rfl

/-! ### `advance` -/

@[simp] theorem advance_v (n : Word) : (s.advance n).v = s.v := rfl
@[simp] theorem advance_i (n : Word) : (s.advance n).i = s.i := rfl
@[simp] theorem advance_sp (n : Word) : (s.advance n).sp = s.sp := rfl
@[simp] theorem advance_stack (n : Word) : (s.advance n).stack = s.stack := rfl
@[simp] theorem advance_dt (n : Word) : (s.advance n).dt = s.dt := rfl
@[simp] theorem advance_st (n : Word) : (s.advance n).st = s.st := rfl
@[simp] theorem advance_mem (n : Word) : (s.advance n).mem = s.mem := rfl
@[simp] theorem advance_fb (n : Word) : (s.advance n).fb = s.fb := rfl
@[simp] theorem advance_params (n : Word) : (s.advance n).params = s.params := rfl
@[simp] theorem advance_draws (n : Word) : (s.advance n).draws = s.draws := rfl
@[simp] theorem advance_event (n : Word) : (s.advance n).event = s.event := rfl
@[simp] theorem advance_reg (n : Word) (r : Reg) : (s.advance n).reg r = s.reg r := rfl
@[simp] theorem advance_slot (n : Word) (k : Fin 16) : (s.advance n).slot k = s.slot k := rfl
@[simp] theorem advance_cell (n : Word) (r : Fin 32) (c : Fin 64) : (s.advance n).cell r c = s.cell r c := rfl
@[simp] theorem advance_byteAt (n : Word) (a : Nat) : (s.advance n).byteAt a = s.byteAt a := rfl
@[simp] theorem advance_pc (n : Word) : (s.advance n).pc = s.pc + n := rfl

/-! ### `setByte` -/

@[simp] theorem setByte_v (p : Nat) (b : Byte) : (s.setByte p b).v = s.v := rfl
@[simp] theorem setByte_i (p : Nat) (b : Byte) : (s.setByte p b).i = s.i := rfl
@[simp] theorem setByte_pc (p : Nat) (b : Byte) : (s.setByte p b).pc = s.pc := rfl
@[simp] theorem setByte_sp (p : Nat) (b : Byte) : (s.setByte p b).sp = s.sp := rfl
@[simp] theorem setByte_stack (p : Nat) (b : Byte) : (s.setByte p b).stack = s.stack := rfl
@[simp] theorem setByte_dt (p : Nat) (b : Byte) : (s.setByte p b).dt = s.dt := rfl
@[simp] theorem setByte_st (p : Nat) (b : Byte) : (s.setByte p b).st = s.st := rfl
@[simp] theorem setByte_fb (p : Nat) (b : Byte) : (s.setByte p b).fb = s.fb := rfl
@[simp] theorem setByte_params (p : Nat) (b : Byte) : (s.setByte p b).params = s.params := rfl
@[simp] theorem setByte_draws (p : Nat) (b : Byte) : (s.setByte p b).draws = s.draws := rfl
@[simp] theorem setByte_event (p : Nat) (b : Byte) : (s.setByte p b).event = s.event := rfl
@[simp] theorem setByte_reg (p : Nat) (b : Byte) (r : Reg) : (s.setByte p b).reg r = s.reg r := rfl
@[simp] theorem setByte_slot (p : Nat) (b : Byte) (k : Fin 16) : (s.setByte p b).slot k = s.slot k := rfl
@[simp] theorem setByte_cell (p : Nat) (b : Byte) (r : Fin 32) (c : Fin 64) : (s.setByte p b).cell r c = s.cell r c := rfl

/-! ### `nextDraw` -/

@[simp] theorem nextDraw_v : (s.nextDraw).v = s.v := rfl
@[simp] theorem nextDraw_i : (s.nextDraw).i = s.i := rfl
@[simp] theorem nextDraw_pc : (s.nextDraw).pc = s.pc := rfl
@[simp] theorem nextDraw_sp : (s.nextDraw).sp = s.sp := rfl
@[simp] theorem nextDraw_stack : (s.nextDraw).stack = s.stack := rfl
@[simp] theorem nextDraw_dt : (s.nextDraw).dt = s.dt := rfl
@[simp] theorem nextDraw_st : (s.nextDraw).st = s.st := rfl
@[simp] theorem nextDraw_mem : (s.nextDraw).mem = s.mem := rfl
@[simp] theorem nextDraw_fb : (s.nextDraw).fb = s.fb := rfl
@[simp] theorem nextDraw_params : (s.nextDraw).params = s.params := rfl
@[simp] theorem nextDraw_event : (s.nextDraw).event = s.event := rfl
@[simp] theorem nextDraw_reg (r : Reg) : (s.nextDraw).reg r = s.reg r := rfl
@[simp] theorem nextDraw_slot (k : Fin 16) : (s.nextDraw).slot k = s.slot k := rfl
@[simp] theorem nextDraw_cell (r : Fin 32) (c : Fin 64) : (s.nextDraw).cell r c = s.cell r c := rfl
@[simp] theorem nextDraw_byteAt (a : Nat) : (s.nextDraw).byteAt a = s.byteAt a := rfl
@[simp] theorem nextDraw_draws : s.nextDraw.draws = s.draws + 1 := rfl

/-! ### `storeBytes` -/

@[simp] theorem storeBytes_v (p : Nat) (bs : List Byte) : (State.storeBytes p bs s).v = s.v := by
  induction bs generalizing p s with
  | nil => rfl
  | cons b bs ih => exact ih _ _
@[simp] theorem storeBytes_i (p : Nat) (bs : List Byte) : (State.storeBytes p bs s).i = s.i := by
  induction bs generalizing p s with
  | nil => rfl
  | cons b bs ih => exact ih _ _
@[simp] theorem storeBytes_pc (p : Nat) (bs : List Byte) : (State.storeBytes p bs s).pc = s.pc := by
  induction bs generalizing p s with
  | nil => rfl
  | cons b bs ih => exact ih _ _
@[simp] theorem storeBytes_sp (p : Nat) (bs : List Byte) : (State.storeBytes p bs s).sp = s.sp := by
  induction bs generalizing p s with
  | nil => rfl
  | cons b bs ih => exact ih _ _
@[simp] theorem storeBytes_stack (p : Nat) (bs : List Byte) : (State.storeBytes p bs s).stack = s.stack := by
  induction bs generalizing p s with
  | nil => rfl
  | cons b bs ih => exact ih _ _
@[simp] theorem storeBytes_dt (p : Nat) (bs : List Byte) : (State.storeBytes p bs s).dt = s.dt := by
  induction bs generalizing p s with
  | nil => rfl
  | cons b bs ih => exact ih _ _
@[simp] theorem storeBytes_st (p : Nat) (bs : List Byte) : (State.storeBytes p bs s).st = s.st := by
  induction bs generalizing p s with
  | nil => rfl
  | cons b bs ih => exact ih _ _
@[simp] theorem storeBytes_fb (p : Nat) (bs : List Byte) : (State.storeBytes p bs s).fb = s.fb := by
  induction bs generalizing p s with
  | nil => rfl
  | cons b bs ih => exact ih _ _
@[simp] theorem storeBytes_params (p : Nat) (bs : List Byte) : (State.storeBytes p bs s).params = s.params := by
  induction bs generalizing p s with
  | nil => rfl
  | cons b bs ih => exact ih _ _
@[simp] theorem storeBytes_draws (p : Nat) (bs : List Byte) : (State.storeBytes p bs s).draws = s.draws := by
  induction bs generalizing p s with
  | nil => rfl
  | cons b bs ih => exact ih _ _
@[simp] theorem storeBytes_event (p : Nat) (bs : List Byte) : (State.storeBytes p bs s).event = s.event := by
  induction bs generalizing p s with
  | nil => rfl
  | cons b bs ih => exact ih _ _
@[simp] theorem storeBytes_reg (p : Nat) (bs : List Byte) (r : Reg) : (State.storeBytes p bs s).reg r = s.reg r := by
  simp [State.reg]
@[simp] theorem storeBytes_slot (p : Nat) (bs : List Byte) (k : Fin 16) : (State.storeBytes p bs s).slot k = s.slot k := by
  simp [State.slot]
@[simp] theorem storeBytes_cell (p : Nat) (bs : List Byte) (r : Fin 32) (c : Fin 64) : (State.storeBytes p bs s).cell r c = s.cell r c := by
  simp [State.cell]

/-! ### `setRegs` -/

@[simp] theorem setRegs_i (j : Nat) (bs : List Byte) : (State.setRegs j bs s).i = s.i := by
  induction bs generalizing j s with
  | nil => rfl
  | cons b bs ih => exact ih _ _
@[simp] theorem setRegs_pc (j : Nat) (bs : List Byte) : (State.setRegs j bs s).pc = s.pc := by
  induction bs generalizing j s with
  | nil => rfl
  | cons b bs ih => exact ih _ _
@[simp] theorem setRegs_sp (j : Nat) (bs : List Byte) : (State.setRegs j bs s).sp = s.sp := by
  induction bs generalizing j s with
  | nil => rfl
  | cons b bs ih => exact ih _ _
@[simp] theorem setRegs_stack (j : Nat) (bs : List Byte) : (State.setRegs j bs s).stack = s.stack := by
  induction bs generalizing j s with
  | nil => rfl
  | cons b bs ih => exact ih _ _
@[simp] theorem setRegs_dt (j : Nat) (bs : List Byte) : (State.setRegs j bs s).dt = s.dt := by
  induction bs generalizing j s with
  | nil => rfl
  | cons b bs ih => exact ih _ _
@[simp] theorem setRegs_st (j : Nat) (bs : List Byte) : (State.setRegs j bs s).st = s.st := by
  induction bs generalizing j s with
  | nil => rfl
  | cons b bs ih => exact ih _ _
@[simp] theorem setRegs_mem (j : Nat) (bs : List Byte) : (State.setRegs j bs s).mem = s.mem := by
  induction bs generalizing j s with
  | nil => rfl
  | cons b bs ih => exact ih _ _
@[simp] theorem setRegs_fb (j : Nat) (bs : List Byte) : (State.setRegs j bs s).fb = s.fb := by
  induction bs generalizing j s with
  | nil => rfl
  | cons b bs ih => exact ih _ _
@[simp] theorem setRegs_params (j : Nat) (bs : List Byte) : (State.setRegs j bs s).params = s.params := by
  induction bs generalizing j s with
  | nil => rfl
  | cons b bs ih => exact ih _ _
@[simp] theorem setRegs_draws (j : Nat) (bs : List Byte) : (State.setRegs j bs s).draws = s.draws := by
  induction bs generalizing j s with
  | nil => rfl
  | cons b bs ih => exact ih _ _
@[simp] theorem setRegs_event (j : Nat) (bs : List Byte) : (State.setRegs j bs s).event = s.event := by
  induction bs generalizing j s with
  | nil => rfl
  | cons b bs ih => exact ih _ _
@[simp] theorem setRegs_slot (j : Nat) (bs : List Byte) (k : Fin 16) : (State.setRegs j bs s).slot k = s.slot k := by
  simp [State.slot]
@[simp] theorem setRegs_cell (j : Nat) (bs : List Byte) (r : Fin 32) (c : Fin 64) : (State.setRegs j bs s).cell r c = s.cell r c := by
  simp [State.cell]
@[simp] theorem setRegs_byteAt (j : Nat) (bs : List Byte) (a : Nat) : (State.setRegs j bs s).byteAt a = s.byteAt a := by
  simp [State.byteAt]

/-! ### The epilogue -/

@[simp] theorem delayStep_v : (s.delayStep).v = s.v := by unfold State.delayStep; split <;> rfl
@[simp] theorem delayStep_i : (s.delayStep).i = s.i := by unfold State.delayStep; split <;> rfl
@[simp] theorem delayStep_pc : (s.delayStep).pc = s.pc := by unfold State.delayStep; split <;> rfl
@[simp] theorem delayStep_sp : (s.delayStep).sp = s.sp := by unfold State.delayStep; split <;> rfl
@[simp] theorem delayStep_stack : (s.delayStep).stack = s.stack := by unfold State.delayStep; split <;> rfl
@[simp] theorem delayStep_st : (s.delayStep).st = s.st := by unfold State.delayStep; split <;> rfl
@[simp] theorem delayStep_mem : (s.delayStep).mem = s.mem := by unfold State.delayStep; split <;> rfl
@[simp] theorem delayStep_fb : (s.delayStep).fb = s.fb := by unfold State.delayStep; split <;> rfl
@[simp] theorem delayStep_params : (s.delayStep).params = s.params := by unfold State.delayStep; split <;> rfl
@[simp] theorem delayStep_draws : (s.delayStep).draws = s.draws := by unfold State.delayStep; split <;> rfl
@[simp] theorem delayStep_event : (s.delayStep).event = s.event := by unfold State.delayStep; split <;> rfl
@[simp] theorem soundStep_v (op : Word) : (State.soundStep op s).v = s.v := by unfold State.soundStep; split <;> rfl
@[simp] theorem soundStep_i (op : Word) : (State.soundStep op s).i = s.i := by unfold State.soundStep; split <;> rfl
@[simp] theorem soundStep_pc (op : Word) : (State.soundStep op s).pc = s.pc := by unfold State.soundStep; split <;> rfl
@[simp] theorem soundStep_sp (op : Word) : (State.soundStep op s).sp = s.sp := by unfold State.soundStep; split <;> rfl
@[simp] theorem soundStep_stack (op : Word) : (State.soundStep op s).stack = s.stack := by unfold State.soundStep; split <;> rfl
@[simp] theorem soundStep_dt (op : Word) : (State.soundStep op s).dt = s.dt := by unfold State.soundStep; split <;> rfl
@[simp] theorem soundStep_mem (op : Word) : (State.soundStep op s).mem = s.mem := by unfold State.soundStep; split <;> rfl
@[simp] theorem soundStep_fb (op : Word) : (State.soundStep op s).fb = s.fb := by unfold State.soundStep; split <;> rfl
@[simp] theorem soundStep_params (op : Word) : (State.soundStep op s).params = s.params := by unfold State.soundStep; split <;> rfl
@[simp] theorem soundStep_draws (op : Word) : (State.soundStep op s).draws = s.draws := by unfold State.soundStep; split <;> rfl
@[simp] theorem epilogue_v (op : Word) : (epilogue op s).v = s.v := by simp [epilogue]
@[simp] theorem epilogue_i (op : Word) : (epilogue op s).i = s.i := by simp [epilogue]
@[simp] theorem epilogue_pc (op : Word) : (epilogue op s).pc = s.pc := by simp [epilogue]
@[simp] theorem epilogue_sp (op : Word) : (epilogue op s).sp = s.sp := by simp [epilogue]
@[simp] theorem epilogue_stack (op : Word) : (epilogue op s).stack = s.stack := by simp [epilogue]
@[simp] theorem epilogue_mem (op : Word) : (epilogue op s).mem = s.mem := by simp [epilogue]
@[simp] theorem epilogue_fb (op : Word) : (epilogue op s).fb = s.fb := by simp [epilogue]
@[simp] theorem epilogue_params (op : Word) : (epilogue op s).params = s.params := by simp [epilogue]
@[simp] theorem epilogue_reg (op : Word) (r : Reg) : (epilogue op s).reg r = s.reg r := by simp [State.reg]
@[simp] theorem epilogue_slot (op : Word) (k : Fin 16) : (epilogue op s).slot k = s.slot k := by simp [State.slot]
@[simp] theorem epilogue_cell (op : Word) (r : Fin 32) (c : Fin 64) : (epilogue op s).cell r c = s.cell r c := by simp [State.cell]
@[simp] theorem epilogue_byteAt (op : Word) (a : Nat) : (epilogue op s).byteAt a = s.byteAt a := by simp [State.byteAt]
@[simp] theorem epilogue_draws (op : Word) : (epilogue op s).draws = s.draws + 1 := by simp [epilogue]

/-- The epilogue's delay timer (R85). -/
theorem epilogue_dt (op : Word) : (epilogue op s).dt =
    if s.params.dtCountdown = .perCycle ∧ 0 < s.dt.toNat then s.dt - 1 else s.dt := by
  simp only [epilogue, nextDraw_dt, soundStep_dt, State.delayStep]
  split <;> rfl

/-- The epilogue's sound timer (R86). -/
theorem epilogue_st (op : Word) : (epilogue op s).st = if 0 < s.st.toNat then s.st - 1 else s.st := by
  simp only [epilogue, nextDraw_st, State.soundStep, delayStep_st]
  split <;> simp

/-- The epilogue's event (R87). -/
theorem epilogue_event (op : Word) : (epilogue op s).event =
    some (if 0 < s.st.toNat then .audio else .executed op) := by
  simp only [epilogue, nextDraw_event, State.soundStep, delayStep_st]
  split <;> rfl

end Sys2Proof.Machine
end

