-- ==== Sys2Proof/Laws/Memory.lean ====
section
/-! SUPPORT. The laws of memory: read over write, and that every memory operation keeps the canonical form. -/

namespace Sys2Proof.Machine

variable (font : Vector Byte 80)

theorem read_insert (a : Nat) (v : Byte) (m : Memory) (c : Nat) :
    Memory.read font c (Memory.insert a v m) = if c = a then v else Memory.read font c m := by
  induction m with
  | nil => simp [Memory.insert, Memory.read]
  | cons cell rest ih =>
    obtain ⟨b, w⟩ := cell
    simp only [Memory.insert]
    split
    · by_cases hc : c = a <;> simp [Memory.read, hc]
    · split
      · rename_i hab
        subst hab
        by_cases hc : c = a <;> simp [Memory.read, hc]
      · rename_i hab
        by_cases hc : c = b
        · have : c ≠ a := by omega
          simp [Memory.read, hc, Ne.symm hab]
        · simp [Memory.read, hc, ih]

theorem read_erase (a : Nat) (m : Memory) (c : Nat) :
    Memory.read font c (Memory.erase a m) = if c = a then Memory.unlisted font a else Memory.read font c m := by
  induction m with
  | nil => by_cases hc : c = a <;> simp [Memory.erase, Memory.read, hc]
  | cons cell rest ih =>
    obtain ⟨b, w⟩ := cell
    simp only [Memory.erase] at ih ⊢
    by_cases hb : b = a
    · subst hb
      by_cases hc : c = b
      · simpa [hc] using ih
      · simpa [Memory.read, hc] using ih
    · by_cases hc : c = b
      · have : c ≠ a := by omega
        simp [Memory.read, hc, hb]
      · by_cases hca : c = a <;> simp_all [Memory.read]

/-- Read over write: the written address reads as written, every other as before. -/
theorem read_write (a : Nat) (v : Byte) (m : Memory) (c : Nat) :
    Memory.read font c (Memory.write font a v m) = if c = a then v else Memory.read font c m := by
  unfold Memory.write
  split
  · rename_i h; rw [read_erase]; simp [h]
  · rw [read_insert]

/-! ### The canonical form -/

theorem wfFrom_mono {lo lo' : Nat} (h : lo' ≤ lo) {m : Memory} (hm : Memory.wfFrom font lo m = true) :
    Memory.wfFrom font lo' m = true := by
  cases m with
  | nil => rfl
  | cons cell rest =>
    obtain ⟨b, w⟩ := cell
    simp only [Memory.wfFrom, Bool.and_eq_true, decide_eq_true_eq] at hm ⊢
    exact ⟨⟨⟨by omega, hm.1.1.2⟩, hm.1.2⟩, hm.2⟩

theorem wfFrom_erase (a : Nat) {lo : Nat} {m : Memory} (hm : Memory.wfFrom font lo m = true) :
    Memory.wfFrom font lo (Memory.erase a m) = true := by
  induction m generalizing lo with
  | nil => rfl
  | cons cell rest ih =>
    obtain ⟨b, w⟩ := cell
    simp only [Memory.wfFrom, Bool.and_eq_true, decide_eq_true_eq] at hm
    by_cases hb : b = a
    · have : Memory.erase a ((b, w) :: rest) = Memory.erase a rest := by simp [Memory.erase, hb]
      rw [this]
      exact wfFrom_mono font (by omega) (ih hm.2)
    · have : Memory.erase a ((b, w) :: rest) = (b, w) :: Memory.erase a rest := by simp [Memory.erase, hb]
      rw [this]
      simp only [Memory.wfFrom, Bool.and_eq_true, decide_eq_true_eq]
      exact ⟨hm.1, ih hm.2⟩

theorem wfFrom_insert {a : Nat} {v : Byte} (ha : a < 4096) (hv : v ≠ Memory.unlisted font a) {lo : Nat} (hlo : lo ≤ a)
    {m : Memory} (hm : Memory.wfFrom font lo m = true) : Memory.wfFrom font lo (Memory.insert a v m) = true := by
  induction m generalizing lo with
  | nil => simp [Memory.insert, Memory.wfFrom, ha, hv, hlo]
  | cons cell rest ih =>
    obtain ⟨b, w⟩ := cell
    simp only [Memory.wfFrom, Bool.and_eq_true, decide_eq_true_eq] at hm
    simp only [Memory.insert]
    split
    · simp only [Memory.wfFrom, Bool.and_eq_true, decide_eq_true_eq]
      exact ⟨⟨⟨hlo, ha⟩, hv⟩, ⟨⟨by omega, hm.1.1.2⟩, hm.1.2⟩, hm.2⟩
    · split
      · rename_i hab
        subst hab
        simp only [Memory.wfFrom, Bool.and_eq_true, decide_eq_true_eq]
        exact ⟨⟨⟨hlo, ha⟩, hv⟩, hm.2⟩
      · simp only [Memory.wfFrom, Bool.and_eq_true, decide_eq_true_eq]
        exact ⟨hm.1, ih (by omega) hm.2⟩

/-- A write below 4096 keeps the canonical form. -/
theorem wf_write {a : Nat} (ha : a < 4096) (v : Byte) {m : Memory} (hm : Memory.wf font m = true) :
    Memory.wf font (Memory.write font a v m) = true := by
  unfold Memory.write
  split
  · exact wfFrom_erase font a hm
  · rename_i h; exact wfFrom_insert font ha h (Nat.zero_le a) hm

/-! ### The same through the state -/

theorem byteAt_setByte (s : State) (a : Nat) (b : Byte) (c : Nat) :
    (s.setByte a b).byteAt c = if c = a then b else s.byteAt c := read_write _ _ _ _ _

/-- What storing bytes does to memory: the stored ones read as stored, every other as before. -/
theorem byteAt_storeBytes (s : State) (a : Nat) (bs : List Byte) (c : Nat) :
    (State.storeBytes a bs s).byteAt c =
      if h : a ≤ c ∧ c < a + bs.length then bs[c - a]'(by omega) else s.byteAt c := by
  induction bs generalizing a s with
  | nil =>
    have : ¬ (a ≤ c ∧ c < a + ([] : List Byte).length) := by simp
    simp [State.storeBytes]
  | cons b bs ih =>
    simp only [State.storeBytes, ih, byteAt_setByte, List.length_cons]
    by_cases h : a + 1 ≤ c ∧ c < a + 1 + bs.length
    · have h' : a ≤ c ∧ c < a + (bs.length + 1) := by omega
      have e : c - a = (c - (a + 1)) + 1 := by omega
      simp only [h, h', and_self, dite_true]
      simp [e]
    · by_cases hc : c = a
      · subst hc
        have h' : ¬ (c + 1 ≤ c) := by omega
        simp
      · have h' : ¬ (a ≤ c ∧ c < a + (bs.length + 1)) := by omega
        rw [dif_neg h, dif_neg h', if_neg hc]

/-- Storing bytes below 4096 keeps the canonical form. -/
theorem wf_storeBytes (s : State) (a : Nat) (bs : List Byte) (h : a + bs.length ≤ 4096)
    (hs : Memory.wf s.params.font s.mem = true) :
    Memory.wf (State.storeBytes a bs s).params.font (State.storeBytes a bs s).mem = true := by
  induction bs generalizing a s with
  | nil => exact hs
  | cons b bs ih =>
    simp only [List.length_cons] at h
    exact ih (s.setByte a b) (a + 1) (by omega) (wf_write _ (by omega) b hs)

theorem bytesAt_length (s : State) (a n : Nat) : (s.bytesAt a n).length = n := by simp [State.bytesAt]

theorem bytesAt_getElem (s : State) (a n k : Nat) (h : k < (s.bytesAt a n).length) :
    (s.bytesAt a n)[k] = s.byteAt (a + k) := by simp [State.bytesAt]

end Sys2Proof.Machine
end

