-- ==== Sys2Proof/Laws/Ops.lean ====
section
/-! SUPPORT. For each shared operation, what it can do, said once: fetch, the stack, the bounds check, the register file, the
flags, drawing, and the cycle as a whole. -/

namespace Sys2Proof.Machine

/-! ### Fetch and the cycle -/

theorem fetch_ok {s : State} (h : s.pc.toNat ≤ 4094) :
    fetch s = .ok (opcodeOf (s.byteAt s.pc.toNat) (s.byteAt (s.pc.toNat + 1))) := by
  simp [fetch, show s.pc.toNat + 1 < 4096 by omega]

theorem fetch_error {s : State} (h : 4094 < s.pc.toNat) : fetch s = .error (.fetchOutOfBounds s.pc) := by
  simp [fetch, show ¬ s.pc.toNat + 1 < 4096 by omega]

theorem fetch_inv {s : State} {op : Word} (h : fetch s = .ok op) :
    s.pc.toNat ≤ 4094 ∧ op = opcodeOf (s.byteAt s.pc.toNat) (s.byteAt (s.pc.toNat + 1)) := by
  by_cases hp : s.pc.toNat ≤ 4094
  · rw [fetch_ok hp] at h
    exact ⟨hp, (Except.ok.inj h).symm⟩
  · rw [fetch_error (by omega)] at h
    cases h

/-- Everything a completed cycle does. -/
theorem step_next {s u : State} (h : step s = .next u) :
    ∃ op i t, fetch s = .ok op ∧ decodeOp op = some i ∧ exec i s = .next t ∧ u = epilogue op t := by
  unfold step at h
  split at h
  · cases h
  · rename_i op hf
    split at h
    · cases h
    · rename_i i hd
      split at h
      · rename_i t he
        cases h
        exact ⟨op, i, t, hf, hd, he, rfl⟩
      · cases h
      · cases h

/-- The cycle whose fetch and decode succeed. -/
theorem step_of_exec {s : State} {op : Word} {i : Instr} (hf : fetch s = .ok op) (hd : decodeOp op = some i) :
    step s = match exec i s with
      | .next t => .next (epilogue op t)
      | .fault f => .fault f
      | .refused r => .refused r := by
  cases h : exec i s <;> simp only [step, hf, hd, h]

theorem nextInstr_some {s : State} {i : Instr} (h : nextInstr s = some i) :
    ∃ op, fetch s = .ok op ∧ decodeOp op = some i := by
  unfold nextInstr at h
  split at h
  · rename_i op hf; exact ⟨op, hf, h⟩
  · cases h

/-! ### Runs -/

/-- A run of `n + 1` steps of any machine is a step, then `n` more. -/
theorem machine_run_succ (M : Host.Core) {n : Nat} {s t : M.State} (h : M.run (n + 1) s = .next t) :
    ∃ u, M.step s = .next u ∧ M.run n u = .next t := by
  unfold Host.Core.run at h
  split at h
  · rename_i u hu; exact ⟨u, hu, h⟩
  · cases h
  · cases h

/-- A run of `n + 1` cycles is a cycle, then `n` more. -/
theorem run_succ {n : Nat} {s t : State} (h : Host.Core.run core (n + 1) s = .next t) :
    ∃ u : State, step s = .next u ∧ Host.Core.run core n u = .next t := machine_run_succ core h

/-- What every cycle keeps, every run keeps. -/
theorem run_invariant {P : State → Prop} (hP : ∀ s t, P s → step s = .next t → P t) {n : Nat} {s t : State} (h : P s)
    (hr : Host.Core.run core n s = .next t) : P t := by
  induction n generalizing s with
  | zero => cases hr; exact h
  | succ n ih =>
    obtain ⟨u, hu, hr⟩ := run_succ hr
    exact ih (hP s u h hu) hr

/-! ### The call stack -/

theorem push_some {s t : State} {w : Word} (h : s.push w = some t) :
    ∃ hs : s.sp.val < 16, t = { s with stack := s.stack.set s.sp.val w, sp := ⟨s.sp.val + 1, by omega⟩ } := by
  unfold State.push at h
  split at h
  · rename_i hs; exact ⟨hs, (Option.some.inj h).symm⟩
  · cases h

theorem push_none {s : State} {w : Word} : s.push w = none ↔ s.sp.val = 16 := by
  have := s.sp.isLt
  unfold State.push
  split <;> simp <;> omega

theorem pop_some {s t : State} {w : Word} (h : s.pop = some (w, t)) :
    ∃ hs : 0 < s.sp.val, w = s.slot ⟨s.sp.val - 1, by omega⟩ ∧ t = { s with sp := ⟨s.sp.val - 1, by omega⟩ } := by
  unfold State.pop at h
  split at h
  · rename_i hs
    cases h
    exact ⟨hs, rfl, rfl⟩
  · cases h

theorem pop_none {s : State} : s.pop = none ↔ s.sp.val = 0 := by
  unfold State.pop
  split <;> simp <;> omega

/-! ### The bounds check of the memory instructions -/

theorem elemAddr_zero (s : State) : s.elemAddr 0 = s.i.toNat := rfl

theorem indexed_in {s : State} {len : Nat} {body : Host.Outcome State Fault Refusal}
    (h : len = 0 ∨ s.i.toNat + len ≤ 4096) : s.indexed len body = body := by
  unfold State.indexed State.elemAddr
  rw [if_neg (by simp only [Config.memSize]; omega)]

theorem indexed_out {s : State} {len : Nat} {body : Host.Outcome State Fault Refusal}
    (h0 : 0 < len) (h : 4096 < s.i.toNat + len) :
    s.indexed len body = .fault (.memoryOutOfBounds (max s.i.toNat 4096)) := by
  unfold State.indexed State.elemAddr
  rw [if_pos (by simp only [Config.memSize]; omega)]

theorem indexed_next {s t : State} {len : Nat} {body : Host.Outcome State Fault Refusal}
    (h : s.indexed len body = .next t) : (len = 0 ∨ s.i.toNat + len ≤ 4096) ∧ body = .next t := by
  by_cases hb : len = 0 ∨ s.i.toNat + len ≤ 4096
  · exact ⟨hb, by rwa [indexed_in hb] at h⟩
  · rw [indexed_out (by omega) (by omega)] at h
    cases h

/-! ### Registers filled from bytes -/

theorem reg_setRegs (s : State) (j : Nat) (bs : List Byte) (h : j + bs.length ≤ 16) (r : Reg) :
    (State.setRegs j bs s).reg r =
      if hr : j ≤ r.val ∧ r.val < j + bs.length then bs[r.val - j]'(by omega) else s.reg r := by
  induction bs generalizing j s with
  | nil =>
    have : ¬ (j ≤ r.val ∧ r.val < j + ([] : List Byte).length) := by simp
    rw [dif_neg this]; rfl
  | cons b bs ih =>
    simp only [List.length_cons] at h
    rw [State.setRegs, ih _ _ (by omega)]
    simp only [List.length_cons]
    by_cases h1 : j + 1 ≤ r.val ∧ r.val < j + 1 + bs.length
    · have h2 : j ≤ r.val ∧ r.val < j + (bs.length + 1) := by omega
      have e : r.val - j = (r.val - (j + 1)) + 1 := by omega
      rw [dif_pos h1, dif_pos h2]
      simp [e]
    · rw [dif_neg h1]
      by_cases hj : j = r.val
      · have h2 : j ≤ r.val ∧ r.val < j + (bs.length + 1) := by omega
        rw [dif_pos h2]
        simp [State.reg, hj]
      · have h2 : ¬ (j ≤ r.val ∧ r.val < j + (bs.length + 1)) := by omega
        rw [dif_neg h2]
        simp [State.reg, hj]

theorem regsUpTo_length (s : State) (x : Reg) : (s.regsUpTo x).length = x.val + 1 := by
  have := x.isLt
  simp [State.regsUpTo]

theorem regsUpTo_getElem (s : State) (x k : Reg) (h : k.val < (s.regsUpTo x).length) :
    (s.regsUpTo x)[k.val] = s.reg k := by simp [State.regsUpTo, State.reg]

/-! ### Frames of the shared endings -/

theorem skipIf_pc (s : State) (c : Bool) : (s.skipIf c).pc = s.pc + if c then 4 else 2 := by simp [State.skipIf]

theorem onlyRegs_advance (s : State) (n : Word) : OnlyRegsChange [] s (s.advance n) :=
  ⟨fun _ _ => rfl, rfl, ⟨rfl, fun _ => rfl⟩, ⟨rfl, rfl⟩, fun _ => rfl, fun _ _ => rfl, rfl, rfl, rfl⟩

theorem onlyRegs_setPc (s : State) (w : Word) : OnlyRegsChange [] s (s.setPc w) :=
  ⟨fun _ _ => rfl, rfl, ⟨rfl, fun _ => rfl⟩, ⟨rfl, rfl⟩, fun _ => rfl, fun _ _ => rfl, rfl, rfl, rfl⟩

theorem onlyRegs_finish {s t : State} {x : Reg} {b : Byte} (h : s.finish x b = .next t) :
    t.reg x = b ∧ t.pc = s.pc + 2 ∧ OnlyRegsChange [x] s t := by
  cases h
  refine ⟨by simp, rfl, ?_, rfl, ⟨rfl, fun _ => rfl⟩, ⟨rfl, rfl⟩, fun _ => rfl, fun _ _ => rfl, rfl, rfl, rfl⟩
  intro r hr
  simp only [List.mem_singleton] at hr
  simp [reg_setReg, hr]

theorem onlyRegs_finishFlag {s t : State} {x : Reg} {b f : Byte} (h : s.finishFlag x b f = .next t) :
    (x ≠ VF → t.reg x = b) ∧ t.reg VF = f ∧ t.pc = s.pc + 2 ∧ OnlyRegsChange [x, VF] s t := by
  cases h
  refine ⟨?_, ?_, rfl, ?_, rfl, ⟨rfl, fun _ => rfl⟩, ⟨rfl, rfl⟩, fun _ => rfl, fun _ _ => rfl, rfl, rfl, rfl⟩
  · intro hx; simp [State.setRegAndFlag, reg_setReg, hx]
  · simp [State.setRegAndFlag]
  · intro r hr
    simp only [List.mem_cons, List.not_mem_nil, or_false, not_or] at hr
    simp [State.setRegAndFlag, reg_setReg, hr]

theorem onlyIndex_finishIndex {s t : State} {a : Word} (h : s.finishIndex a = .next t) :
    t.i = a ∧ t.pc = s.pc + 2 ∧ OnlyIndexChanges s t := by
  cases h
  exact ⟨rfl, rfl, fun _ _ => rfl, ⟨rfl, fun _ => rfl⟩, ⟨rfl, rfl⟩, fun _ => rfl, fun _ _ => rfl, rfl, rfl, rfl⟩

/-! ### Flags -/

theorem flagByte_toNat (b : Bool) : (flagByte b).toNat = if b then 1 else 0 := by cases b <;> rfl

theorem reg_setRegAndFlag (s : State) (x : Reg) (v f : Byte) (r : Reg) :
    (s.setRegAndFlag x v f).reg r = if r = VF then f else if r = x then v else s.reg r := by
  simp [State.setRegAndFlag, reg_setReg]

/-! ### Drawing -/

theorem cell_toggle (fb : FrameBuffer) (r r' : Fin 32) (c c' : Fin 64) :
    (fb.toggle r c).cell r' c' = (if r' = r ∧ c' = c then !(fb.cell r' c') else fb.cell r' c') := by
  unfold FrameBuffer.toggle FrameBuffer.cell
  simp only [Fin.getElem_fin, Vector.getElem_set]
  by_cases hr : r = r'
  · subst hr
    by_cases hc : c = c'
    · subst hc; simp
    · have : c.val ≠ c'.val := fun e => hc (Fin.ext e)
      simp [this, Ne.symm hc]
  · have : r.val ≠ r'.val := fun e => hr (Fin.ext e)
    simp [this, Ne.symm hr]

/-- A cell is hit by the first `m` columns of a sprite byte drawn in row `r`. -/
def rowHit (vx : Nat) (r : Fin 32) (b : Byte) (m : Nat) (r' : Fin 32) (c' : Fin 64) : Prop :=
  r' = r ∧ ∃ col < m, b.getLsbD (7 - col) = true ∧ (vx + col) % 64 = c'.val

/-- The first `m` columns of a sprite byte: they flip the cells hit, each once, and report a cell turned off. -/
theorem drawCols (vx : Nat) (r : Fin 32) (b : Byte) (d : FrameBuffer × Bool) (m : Nat) (hm : m ≤ 8) :
    let e := (List.range m).foldl
      (fun d col => if b.getLsbD (7 - col) then drawPixel r (wrapCol (vx + col)) d else d) d
    (∀ r' c', rowHit vx r b m r' c' → e.1.cell r' c' = !(d.1.cell r' c')) ∧
    (∀ r' c', ¬ rowHit vx r b m r' c' → e.1.cell r' c' = d.1.cell r' c') ∧
    (e.2 = true ↔ d.2 = true ∨ ∃ r' c', rowHit vx r b m r' c' ∧ d.1.cell r' c' = true) := by
  induction m with
  | zero => simp [rowHit]
  | succ m ih =>
    obtain ⟨ih1, ih2, ih3⟩ := ih (by omega)
    simp only [List.range_succ, List.foldl_append, List.foldl_cons, List.foldl_nil]
    set e := (List.range m).foldl
      (fun d col => if b.getLsbD (7 - col) then drawPixel r (wrapCol (vx + col)) d else d) d with he
    by_cases hb : b.getLsbD (7 - m) = true
    · simp only [hb, if_true, drawPixel, cell_toggle]
      have hnew : ¬ rowHit vx r b m r (wrapCol (vx + m)) := by
        rintro ⟨-, col, hcol, -, hc⟩
        simp only [wrapCol] at hc
        omega
      have hsucc : ∀ r' c', rowHit vx r b (m + 1) r' c' ↔ rowHit vx r b m r' c' ∨ (r' = r ∧ c' = wrapCol (vx + m)) := by
        intro r' c'
        constructor
        · rintro ⟨hr, col, hcol, hbit, hc⟩
          by_cases hl : col < m
          · exact .inl ⟨hr, col, hl, hbit, hc⟩
          · obtain rfl : col = m := by omega
            exact .inr ⟨hr, Fin.ext hc.symm⟩
        · rintro (⟨hr, col, hcol, hbit, hc⟩ | ⟨hr, rfl⟩)
          · exact ⟨hr, col, by omega, hbit, hc⟩
          · exact ⟨hr, m, by omega, hb, rfl⟩
      refine ⟨?_, ?_, ?_⟩
      · intro r' c' h
        rcases (hsucc r' c').mp h with h | ⟨rfl, rfl⟩
        · have : ¬ (r' = r ∧ c' = wrapCol (vx + m)) := by rintro ⟨rfl, rfl⟩; exact hnew h
          rw [if_neg this, ih1 r' c' h]
        · rw [if_pos ⟨rfl, rfl⟩, ih2 _ _ hnew]
      · intro r' c' h
        have h' := fun hh => h ((hsucc r' c').mpr hh)
        rw [if_neg (fun hh => h' (.inr hh)), ih2 r' c' (fun hh => h' (.inl hh))]
      · rw [Bool.or_eq_true, ih3, ih2 _ _ hnew]
        constructor
        · rintro ((h | ⟨r', c', h, hd⟩) | h)
          · exact .inl h
          · exact .inr ⟨r', c', (hsucc r' c').mpr (.inl h), hd⟩
          · exact .inr ⟨r, _, (hsucc _ _).mpr (.inr ⟨rfl, rfl⟩), h⟩
        · rintro (h | ⟨r', c', h, hd⟩)
          · exact .inl (.inl h)
          · rcases (hsucc r' c').mp h with h | ⟨rfl, rfl⟩
            · exact .inl (.inr ⟨r', c', h, hd⟩)
            · exact .inr hd
    · have hsame : ∀ r' c', rowHit vx r b (m + 1) r' c' ↔ rowHit vx r b m r' c' := by
        intro r' c'
        constructor
        · rintro ⟨hr, col, hcol, hbit, hc⟩
          have : col ≠ m := by rintro rfl; exact hb hbit
          exact ⟨hr, col, by omega, hbit, hc⟩
        · rintro ⟨hr, col, hcol, hbit, hc⟩
          exact ⟨hr, col, by omega, hbit, hc⟩
      simp only [hb, hsame]
      exact ⟨ih1, ih2, ih3⟩

/-- A cell is hit by sprite bytes drawn from row `y` on. -/
def spriteHit (vx y : Nat) (bs : List Byte) (r : Fin 32) (c : Fin 64) : Prop :=
  ∃ (row col : Nat) (h : row < bs.length), col < 8 ∧ bs[row].getLsbD (7 - col) = true ∧
    (y + row) % 32 = r.val ∧ (vx + col) % 64 = c.val

theorem spriteHit_cons (vx y : Nat) (b : Byte) (bs : List Byte) (r : Fin 32) (c : Fin 64) :
    spriteHit vx y (b :: bs) r c ↔ rowHit vx (wrapRow y) b 8 r c ∨ spriteHit vx (y + 1) bs r c := by
  constructor
  · rintro ⟨row, col, h, hcol, hbit, hr, hc⟩
    cases row with
    | zero => exact .inl ⟨Fin.ext (by simpa [wrapRow] using hr.symm), col, hcol, by simpa using hbit, hc⟩
    | succ row =>
      exact .inr ⟨row, col, by simpa using h, hcol, by simpa using hbit, by rw [← hr]; congr 1; omega, hc⟩
  · rintro (⟨rfl, col, hcol, hbit, hc⟩ | ⟨row, col, h, hcol, hbit, hr, hc⟩)
    · exact ⟨0, col, by simp, hcol, by simpa using hbit, by simp [wrapRow], hc⟩
    · exact ⟨row + 1, col, by simpa using h, hcol, by simpa using hbit, by rw [← hr]; congr 1; omega, hc⟩

/-- What drawing up to 32 sprite bytes does: it flips the cells hit, each once, and reports whether one was turned off. -/
theorem drawRows_spec (vx y : Nat) (bs : List Byte) (hlen : bs.length ≤ 32) (d : FrameBuffer × Bool) :
    (∀ r c, spriteHit vx y bs r c → (drawRows vx y bs d).1.cell r c = !(d.1.cell r c)) ∧
    (∀ r c, ¬ spriteHit vx y bs r c → (drawRows vx y bs d).1.cell r c = d.1.cell r c) ∧
    ((drawRows vx y bs d).2 = true ↔ d.2 = true ∨ ∃ r c, spriteHit vx y bs r c ∧ d.1.cell r c = true) := by
  induction bs generalizing y d with
  | nil => simp [spriteHit, drawRows]
  | cons b bs ih =>
    simp only [List.length_cons] at hlen
    obtain ⟨h1, h2, h3⟩ := drawCols vx (wrapRow y) b d 8 (by omega)
    obtain ⟨i1, i2, i3⟩ := ih (y + 1) (by omega) (drawRow vx (wrapRow y) b d)
    have hdis : ∀ r c, rowHit vx (wrapRow y) b 8 r c → ¬ spriteHit vx (y + 1) bs r c := by
      rintro r c ⟨rfl, -⟩ ⟨row, col, h, -, -, hr, -⟩
      simp only [wrapRow] at hr
      omega
    simp only [drawRows, spriteHit_cons]
    refine ⟨?_, ?_, ?_⟩
    · rintro r c (h | h)
      · rw [i2 r c (hdis r c h)]; exact h1 r c h
      · rw [i1 r c h]; congr 1; exact h2 r c (fun hh => hdis r c hh h)
    · intro r c h
      rw [i2 r c (fun hh => h (.inr hh))]; exact h2 r c (fun hh => h (.inl hh))
    · rw [i3]
      constructor
      · rintro (h | ⟨r, c, h, hd⟩)
        · rcases h3.mp h with h | ⟨r, c, h, hd⟩
          · exact .inl h
          · exact .inr ⟨r, c, .inl h, hd⟩
        · refine .inr ⟨r, c, .inr h, ?_⟩
          rw [← hd]; exact (h2 r c (fun hh => hdis r c hh h)).symm
      · rintro (h | ⟨r, c, h | h, hd⟩)
        · exact .inl (h3.mpr (.inl h))
        · exact .inl (h3.mpr (.inr ⟨r, c, h, hd⟩))
        · refine .inr ⟨r, c, h, ?_⟩
          rw [← hd]; exact h2 r c (fun hh => hdis r c hh h)

end Sys2Proof.Machine
end

