-- ==== Sys2Proof/Laws/PerInstr.lean ====
section
/-! SUPPORT. Statements made per instruction (LAWS.json).  EncodesLegally: every instruction's opcode is one of the legal values of
R69, read class by class and not from the decoder's table. -/

namespace Sys2Proof.Laws

/-- The opcode of the instruction is legal (R69, R71). -/
def EncodesLegally.Statement (i : Instr) : Prop := Opcode.legal (encode i) = true

/-- Classes in which every value is legal (R69). -/
theorem legal_of_class {op : Word} (c : Nat) (h : op.toNat / 4096 = c)
    (hc : c ∉ [0x0, 0x5, 0x8, 0x9, 0xE, 0xF]) : Opcode.legal op = true := by
  unfold Opcode.legal
  rw [h]
  simp only [List.mem_cons, List.not_mem_nil, or_false, not_or] at hc
  split <;> first | rfl | omega

theorem legal_skipReg {op : Word} (h : op.toNat / 4096 = 5 ∨ op.toNat / 4096 = 9) (hn : op.toNat % 16 = 0) :
    Opcode.legal op = true := by
  unfold Opcode.legal
  rcases h with h | h <;> simp [h, Opcode.legalSkipReg, hn]

theorem legal_alu {op : Word} (h : op.toNat / 4096 = 8) {k : Nat} (hn : op.toNat % 16 = k)
    (hk : k ∈ [0, 1, 2, 3, 4, 5, 6, 7, 14]) : Opcode.legal op = true := by
  simp only [Opcode.legal, h, Opcode.legalAlu, hn]
  simp only [List.mem_cons, List.not_mem_nil, or_false] at hk
  rcases hk with rfl | rfl | rfl | rfl | rfl | rfl | rfl | rfl | rfl <;> rfl

theorem legal_key {op : Word} (h : op.toNat / 4096 = 14) {k : Nat} (hn : op.toNat % 256 = k)
    (hk : k ∈ [0x9E, 0xA1]) : Opcode.legal op = true := by
  simp only [Opcode.legal, h, Opcode.legalKey, hn]
  simpa using hk

theorem legal_misc {op : Word} (h : op.toNat / 4096 = 15) {k : Nat} (hn : op.toNat % 256 = k)
    (hk : k ∈ [0x07, 0x0A, 0x15, 0x18, 0x1E, 0x29, 0x33, 0x55, 0x65]) : Opcode.legal op = true := by
  simp only [Opcode.legal, h, Opcode.legalMisc, hn]
  simpa using hk

theorem EncodesLegally.cls : Statement .cls := rfl

theorem EncodesLegally.ret : Statement .ret := rfl

theorem EncodesLegally.jmp (nnn : BitVec 12) : Statement (.jmp nnn) := by
  have h : (encode (.jmp nnn)).toNat = 1 * 4096 + nnn.toNat := encodeA_toNat 1 (by decide) nnn
  have := nnn.isLt
  exact legal_of_class 1 (by omega) (by decide)

theorem EncodesLegally.call (nnn : BitVec 12) : Statement (.call nnn) := by
  have h : (encode (.call nnn)).toNat = 2 * 4096 + nnn.toNat := encodeA_toNat 2 (by decide) nnn
  have := nnn.isLt
  exact legal_of_class 2 (by omega) (by decide)

theorem EncodesLegally.seImm (x : Reg) (nn : BitVec 8) : Statement (.seImm x nn) := by
  have h : (encode (.seImm x nn)).toNat = 3 * 4096 + x.val * 256 + nn.toNat := encodeXI_toNat 3 (by decide) x nn
  have := x.isLt
  have := nn.isLt
  exact legal_of_class 3 (by omega) (by decide)

theorem EncodesLegally.sneImm (x : Reg) (nn : BitVec 8) : Statement (.sneImm x nn) := by
  have h : (encode (.sneImm x nn)).toNat = 4 * 4096 + x.val * 256 + nn.toNat := encodeXI_toNat 4 (by decide) x nn
  have := x.isLt
  have := nn.isLt
  exact legal_of_class 4 (by omega) (by decide)

theorem EncodesLegally.seReg (x y : Reg) : Statement (.seReg x y) := by
  have h : (encode (.seReg x y)).toNat = 5 * 4096 + x.val * 256 + y.val * 16 + 0 := encodeXY_toNat 5 0 (by decide) (by decide) x y
  have := x.isLt
  have := y.isLt
  exact legal_skipReg (by omega) (by omega)

theorem EncodesLegally.ldImm (x : Reg) (nn : BitVec 8) : Statement (.ldImm x nn) := by
  have h : (encode (.ldImm x nn)).toNat = 6 * 4096 + x.val * 256 + nn.toNat := encodeXI_toNat 6 (by decide) x nn
  have := x.isLt
  have := nn.isLt
  exact legal_of_class 6 (by omega) (by decide)

theorem EncodesLegally.addImm (x : Reg) (nn : BitVec 8) : Statement (.addImm x nn) := by
  have h : (encode (.addImm x nn)).toNat = 7 * 4096 + x.val * 256 + nn.toNat := encodeXI_toNat 7 (by decide) x nn
  have := x.isLt
  have := nn.isLt
  exact legal_of_class 7 (by omega) (by decide)

theorem EncodesLegally.ldReg (x y : Reg) : Statement (.ldReg x y) := by
  have h : (encode (.ldReg x y)).toNat = 8 * 4096 + x.val * 256 + y.val * 16 + 0 := encodeXY_toNat 8 0 (by decide) (by decide) x y
  have := x.isLt
  have := y.isLt
  exact legal_alu (by omega) (k := 0) (by omega) (by decide)

theorem EncodesLegally.or (x y : Reg) : Statement (.or x y) := by
  have h : (encode (.or x y)).toNat = 8 * 4096 + x.val * 256 + y.val * 16 + 1 := encodeXY_toNat 8 1 (by decide) (by decide) x y
  have := x.isLt
  have := y.isLt
  exact legal_alu (by omega) (k := 1) (by omega) (by decide)

theorem EncodesLegally.and (x y : Reg) : Statement (.and x y) := by
  have h : (encode (.and x y)).toNat = 8 * 4096 + x.val * 256 + y.val * 16 + 2 := encodeXY_toNat 8 2 (by decide) (by decide) x y
  have := x.isLt
  have := y.isLt
  exact legal_alu (by omega) (k := 2) (by omega) (by decide)

theorem EncodesLegally.xor (x y : Reg) : Statement (.xor x y) := by
  have h : (encode (.xor x y)).toNat = 8 * 4096 + x.val * 256 + y.val * 16 + 3 := encodeXY_toNat 8 3 (by decide) (by decide) x y
  have := x.isLt
  have := y.isLt
  exact legal_alu (by omega) (k := 3) (by omega) (by decide)

theorem EncodesLegally.addReg (x y : Reg) : Statement (.addReg x y) := by
  have h : (encode (.addReg x y)).toNat = 8 * 4096 + x.val * 256 + y.val * 16 + 4 := encodeXY_toNat 8 4 (by decide) (by decide) x y
  have := x.isLt
  have := y.isLt
  exact legal_alu (by omega) (k := 4) (by omega) (by decide)

theorem EncodesLegally.sub (x y : Reg) : Statement (.sub x y) := by
  have h : (encode (.sub x y)).toNat = 8 * 4096 + x.val * 256 + y.val * 16 + 5 := encodeXY_toNat 8 5 (by decide) (by decide) x y
  have := x.isLt
  have := y.isLt
  exact legal_alu (by omega) (k := 5) (by omega) (by decide)

theorem EncodesLegally.shr (x y : Reg) : Statement (.shr x y) := by
  have h : (encode (.shr x y)).toNat = 8 * 4096 + x.val * 256 + y.val * 16 + 6 := encodeXY_toNat 8 6 (by decide) (by decide) x y
  have := x.isLt
  have := y.isLt
  exact legal_alu (by omega) (k := 6) (by omega) (by decide)

theorem EncodesLegally.subn (x y : Reg) : Statement (.subn x y) := by
  have h : (encode (.subn x y)).toNat = 8 * 4096 + x.val * 256 + y.val * 16 + 7 := encodeXY_toNat 8 7 (by decide) (by decide) x y
  have := x.isLt
  have := y.isLt
  exact legal_alu (by omega) (k := 7) (by omega) (by decide)

theorem EncodesLegally.shl (x y : Reg) : Statement (.shl x y) := by
  have h : (encode (.shl x y)).toNat = 8 * 4096 + x.val * 256 + y.val * 16 + 14 := encodeXY_toNat 8 14 (by decide) (by decide) x y
  have := x.isLt
  have := y.isLt
  exact legal_alu (by omega) (k := 14) (by omega) (by decide)

theorem EncodesLegally.sneReg (x y : Reg) : Statement (.sneReg x y) := by
  have h : (encode (.sneReg x y)).toNat = 9 * 4096 + x.val * 256 + y.val * 16 + 0 := encodeXY_toNat 9 0 (by decide) (by decide) x y
  have := x.isLt
  have := y.isLt
  exact legal_skipReg (by omega) (by omega)

theorem EncodesLegally.ldi (nnn : BitVec 12) : Statement (.ldi nnn) := by
  have h : (encode (.ldi nnn)).toNat = 10 * 4096 + nnn.toNat := encodeA_toNat 10 (by decide) nnn
  have := nnn.isLt
  exact legal_of_class 10 (by omega) (by decide)

theorem EncodesLegally.jmp0 (nnn : BitVec 12) : Statement (.jmp0 nnn) := by
  have h : (encode (.jmp0 nnn)).toNat = 11 * 4096 + nnn.toNat := encodeA_toNat 11 (by decide) nnn
  have := nnn.isLt
  exact legal_of_class 11 (by omega) (by decide)

theorem EncodesLegally.rnd (x : Reg) (nn : BitVec 8) : Statement (.rnd x nn) := by
  have h : (encode (.rnd x nn)).toNat = 12 * 4096 + x.val * 256 + nn.toNat := encodeXI_toNat 12 (by decide) x nn
  have := x.isLt
  have := nn.isLt
  exact legal_of_class 12 (by omega) (by decide)

theorem EncodesLegally.drw (x y : Reg) (n : BitVec 4) : Statement (.drw x y n) := by
  have h : (encode (.drw x y n)).toNat = 13 * 4096 + x.val * 256 + y.val * 16 + n.toNat := encodeXYN_toNat 13 (by decide) x y n
  have := x.isLt
  have := y.isLt
  have := n.isLt
  exact legal_of_class 13 (by omega) (by decide)

theorem EncodesLegally.skp (x : Reg) : Statement (.skp x) := by
  have h : (encode (.skp x)).toNat = 14 * 4096 + x.val * 256 + 0x9E := encodeX_toNat 14 0x9E (by decide) (by decide) x
  have := x.isLt
  exact legal_key (by omega) (k := 0x9E) (by omega) (by decide)

theorem EncodesLegally.sknp (x : Reg) : Statement (.sknp x) := by
  have h : (encode (.sknp x)).toNat = 14 * 4096 + x.val * 256 + 0xA1 := encodeX_toNat 14 0xA1 (by decide) (by decide) x
  have := x.isLt
  exact legal_key (by omega) (k := 0xA1) (by omega) (by decide)

theorem EncodesLegally.getdt (x : Reg) : Statement (.getdt x) := by
  have h : (encode (.getdt x)).toNat = 15 * 4096 + x.val * 256 + 0x07 := encodeX_toNat 15 0x07 (by decide) (by decide) x
  have := x.isLt
  exact legal_misc (by omega) (k := 0x07) (by omega) (by decide)

theorem EncodesLegally.waitkey (x : Reg) : Statement (.waitkey x) := by
  have h : (encode (.waitkey x)).toNat = 15 * 4096 + x.val * 256 + 0x0A := encodeX_toNat 15 0x0A (by decide) (by decide) x
  have := x.isLt
  exact legal_misc (by omega) (k := 0x0A) (by omega) (by decide)

theorem EncodesLegally.setdt (x : Reg) : Statement (.setdt x) := by
  have h : (encode (.setdt x)).toNat = 15 * 4096 + x.val * 256 + 0x15 := encodeX_toNat 15 0x15 (by decide) (by decide) x
  have := x.isLt
  exact legal_misc (by omega) (k := 0x15) (by omega) (by decide)

theorem EncodesLegally.setst (x : Reg) : Statement (.setst x) := by
  have h : (encode (.setst x)).toNat = 15 * 4096 + x.val * 256 + 0x18 := encodeX_toNat 15 0x18 (by decide) (by decide) x
  have := x.isLt
  exact legal_misc (by omega) (k := 0x18) (by omega) (by decide)

theorem EncodesLegally.addi (x : Reg) : Statement (.addi x) := by
  have h : (encode (.addi x)).toNat = 15 * 4096 + x.val * 256 + 0x1E := encodeX_toNat 15 0x1E (by decide) (by decide) x
  have := x.isLt
  exact legal_misc (by omega) (k := 0x1E) (by omega) (by decide)

theorem EncodesLegally.font (x : Reg) : Statement (.font x) := by
  have h : (encode (.font x)).toNat = 15 * 4096 + x.val * 256 + 0x29 := encodeX_toNat 15 0x29 (by decide) (by decide) x
  have := x.isLt
  exact legal_misc (by omega) (k := 0x29) (by omega) (by decide)

theorem EncodesLegally.bcd (x : Reg) : Statement (.bcd x) := by
  have h : (encode (.bcd x)).toNat = 15 * 4096 + x.val * 256 + 0x33 := encodeX_toNat 15 0x33 (by decide) (by decide) x
  have := x.isLt
  exact legal_misc (by omega) (k := 0x33) (by omega) (by decide)

theorem EncodesLegally.dump (x : Reg) : Statement (.dump x) := by
  have h : (encode (.dump x)).toNat = 15 * 4096 + x.val * 256 + 0x55 := encodeX_toNat 15 0x55 (by decide) (by decide) x
  have := x.isLt
  exact legal_misc (by omega) (k := 0x55) (by omega) (by decide)

theorem EncodesLegally.load (x : Reg) : Statement (.load x) := by
  have h : (encode (.load x)).toNat = 15 * 4096 + x.val * 256 + 0x65 := encodeX_toNat 15 0x65 (by decide) (by decide) x
  have := x.isLt
  exact legal_misc (by omega) (k := 0x65) (by omega) (by decide)

end Sys2Proof.Laws
end

