-- ==== Sys2Proof/Tests/Slice0.lean ====
section
/-! SUPPORT. Tests.  Expected results come from spec/: the encodings of 30_encoding.md R66, the worked examples of the rules and
the vectors of 95_test_vectors.md (named V-... and S... below), never from the model.  Then one witness for every
obligation with hypotheses. -/

namespace Sys2Proof.Tests

open Sys2Proof.Machine

/-! ### Helpers -/

/-- The state of a `next` outcome. -/
def after : Host.Outcome State Fault Refusal → Option State
  | .next s => some s
  | .fault _ => none
  | .refused _ => none

/-- The fault of a `fault` outcome. -/
def faultOf : Host.Outcome State Fault Refusal → Option Fault
  | .next _ => none
  | .fault f => some f
  | .refused _ => none

theorem next_of_after {o : Host.Outcome State Fault Refusal} {s : State} (h : after o = some s) : o = .next s := by
  cases o <;> simp_all [after]

theorem exists_next {o : Host.Outcome State Fault Refusal} (h : (after o).isSome = true) : ∃ t, o = .next t := by
  cases o <;> simp_all [after]

theorem fault_of_faultOf {o : Host.Outcome State Fault Refusal} {f : Fault} (h : faultOf o = some f) : o = .fault f := by
  cases o <;> simp_all [faultOf]

/-- The reset state with one opcode at `0x200`. -/
def at200 (op : Nat) : State := State.reset.withFetchWord 16 op

/-- The same with some registers set. -/
def regs (s : State) (vs : List (Reg × Byte)) : State := vs.foldl (fun s p => s.setReg p.1 p.2) s

/-- One cycle; the state itself where it does not complete. -/
def cycle (s : State) : State := (after (step s)).getD s

/-! ### WellFormed: for each check an ill-formed term, which the check refuses -/

theorem test_illegal_class0 : Opcode.legal 0x0000 = false := by decide
theorem test_illegal_class5 : Opcode.legal 0x5011 = false := by decide
theorem test_illegal_class8 : Opcode.legal 0x8018 = false := by decide
theorem test_illegal_class9 : Opcode.legal 0x9011 = false := by decide
theorem test_illegal_classE : Opcode.legal 0xE09F = false := by decide
theorem test_illegal_classF : Opcode.legal 0xF030 = false := by decide
theorem test_legal_otherwise : Opcode.legal 0xDABC = true := by decide
theorem test_image_too_long : Image.wellFormed (List.replicate 3585 0) = false := by
  rw [Image.wellFormed, List.length_replicate]; decide

/-! ### Decode: one word per constructor, its bits written out from the encoding column of the opcode table -/

theorem test_decode_low :
    decodeOp 0b0000000011100000 = some .cls ∧ decodeOp 0b0000000011101110 = some .ret ∧
    decodeOp 0b0001001000000100 = some (.jmp 0x204) ∧ decodeOp 0b0010001000001000 = some (.call 0x208) ∧
    decodeOp 0b0011000000010100 = some (.seImm 0 0x14) ∧ decodeOp 0b0100000000010100 = some (.sneImm 0 0x14) ∧
    decodeOp 0b0101000000010000 = some (.seReg 0 1) ∧ decodeOp 0b0110000011101010 = some (.ldImm 0 0xEA) ∧
    decodeOp 0b0111000011111111 = some (.addImm 0 0xFF) := by decide

theorem test_decode_alu :
    decodeOp 0b1000000000010000 = some (.ldReg 0 1) ∧ decodeOp 0b1000000000010001 = some (.or 0 1) ∧
    decodeOp 0b1000000000010010 = some (.and 0 1) ∧ decodeOp 0b1000000000010011 = some (.xor 0 1) ∧
    decodeOp 0b1000111100010100 = some (.addReg 15 1) ∧ decodeOp 0b1000111100010101 = some (.sub 15 1) ∧
    decodeOp 0b1000101010110110 = some (.shr 10 11) ∧ decodeOp 0b1000000000010111 = some (.subn 0 1) ∧
    decodeOp 0b1000000000011110 = some (.shl 0 1) := by decide

theorem test_decode_mid :
    decodeOp 0b1001000000010000 = some (.sneReg 0 1) ∧ decodeOp 0b1010001100000000 = some (.ldi 0x300) ∧
    decodeOp 0b1011001100000000 = some (.jmp0 0x300) ∧ decodeOp 0b1100000000001111 = some (.rnd 0 0x0F) ∧
    decodeOp 0b1101101010111100 = some (.drw 10 11 12) := by decide

theorem test_decode_high :
    decodeOp 0b1110010110011110 = some (.skp 5) ∧ decodeOp 0b1110010110100001 = some (.sknp 5) ∧
    decodeOp 0b1111010100000111 = some (.getdt 5) ∧ decodeOp 0b1111010100001010 = some (.waitkey 5) ∧
    decodeOp 0b1111010100010101 = some (.setdt 5) ∧ decodeOp 0b1111010100011000 = some (.setst 5) ∧
    decodeOp 0b1111010100011110 = some (.addi 5) ∧ decodeOp 0b1111010100101001 = some (.font 5) ∧
    decodeOp 0b1111010100110011 = some (.bcd 5) ∧ decodeOp 0b1111010101010101 = some (.dump 5) ∧
    decodeOp 0b1111111001100101 = some (.load 14) := by decide

/-- V-DE-1 to V-DE-7, at least one per class. -/
theorem test_decode_rejects :
    ([0x0000, 0x00E1, 0x00EF, 0x0123, 0x0FFF, 0x5011, 0x501F, 0x9011, 0x8018, 0x801D, 0x801F, 0xE09F, 0xE000, 0xE0A0,
      0xF000, 0xF01F, 0xF075, 0xF085, 0xF030, 0xF0FF].all (fun w => (decodeOp w).isNone)) = true := by decide

/-- R60: an instruction is two bytes; the high byte comes first (R40). -/
theorem test_decode_bytes :
    decode [0x12, 0x04, 0xFF] = .ok (.jmp 0x204) ∧ decode [0x12] = .error .truncated ∧
    decode [0x00, 0x00] = .error (.illegalOpcode 0x0000) ∧ decodeTableWord 16 0x1204 = some (.jmp 0x204) := by decide

/-- S1: the encodings of the document's assembly example. -/
theorem test_encode_example :
    [Instr.cls, .seReg 0 1, .seImm 0 20, .sneReg 0 1, .sneImm 0 20, .jmp 0x200].map encode =
      [0x00E0, 0x5010, 0x3014, 0x9010, 0x4014, 0x1200] := by decide

/-! ### Control flow -/

/-- V-CF-1, V-CF-2. -/
theorem test_seImm : (cycle (regs (at200 0x3014) [(0, 0x14)])).pc = 0x204 ∧
    (cycle (regs (at200 0x3014) [(0, 0x15)])).pc = 0x202 := by decide
/-- V-CF-3, V-CF-4. -/
theorem test_sneImm : (cycle (regs (at200 0x4014) [(0, 0x14)])).pc = 0x202 ∧
    (cycle (regs (at200 0x4014) [(0, 0x15)])).pc = 0x204 := by decide
/-- V-CF-5, V-CF-6. -/
theorem test_seReg : (cycle (regs (at200 0x5010) [(0, 7), (1, 7)])).pc = 0x204 ∧
    (cycle (regs (at200 0x5010) [(0, 7), (1, 8)])).pc = 0x202 := by decide
/-- V-CF-8, V-CF-9. -/
theorem test_sneReg : (cycle (regs (at200 0x9010) [(0, 7), (1, 8)])).pc = 0x204 ∧
    (cycle (regs (at200 0x9010) [(0, 7), (1, 7)])).pc = 0x202 := by decide
/-- V-CF-12: an odd target is legal. -/
theorem test_jmp_odd : (cycle (at200 0x1201)).pc = 0x201 := by decide
/-- V-CF-14: the sixteenth call succeeds. -/
theorem test_call_sixteenth : (cycle { at200 0x2300 with sp := 15 }).slot 15 = 0x202 ∧
    (cycle { at200 0x2300 with sp := 15 }).sp = 16 ∧ (cycle { at200 0x2300 with sp := 15 }).pc = 0x300 := by decide
/-- V-CF-15: the seventeenth faults. -/
theorem test_call_overflow : faultOf (step { at200 0x2300 with sp := 16 }) = some .stackOverflow := by decide
/-- V-CF-17: the popped slot keeps its value. -/
theorem test_ret : (cycle { at200 0x00EE with sp := 1, stack := (Vector.replicate 16 0).set 0 0x206 }).pc = 0x206 ∧
    (cycle { at200 0x00EE with sp := 1, stack := (Vector.replicate 16 0).set 0 0x206 }).slot 0 = 0x206 := by decide
/-- V-CF-18. -/
theorem test_ret_underflow : faultOf (step (at200 0x00EE)) = some .stackUnderflow := by decide
/-- V-CF-22: not masked, and the next cycle faults. -/
theorem test_jmp0 : (cycle (regs (at200 0xBFFF) [(0, 0xFF)])).pc = 0x10FE ∧
    faultOf (step (cycle (regs (at200 0xBFFF) [(0, 0xFF)]))) = some (.fetchOutOfBounds 0x10FE) := by decide

/-! ### Registers and ALU -/

/-- V-ALU-1. -/
theorem test_ldImm : (cycle (at200 0x60EA)).reg 0 = 0xEA := by decide
/-- V-ALU-3: wraps, no flag. -/
theorem test_addImm : (cycle (regs (at200 0x7001) [(0, 0xFF), (15, 7)])).reg 0 = 0 ∧
    (cycle (regs (at200 0x7001) [(0, 0xFF), (15, 7)])).reg 15 = 7 := by decide
/-- V-ALU-18. -/
theorem test_ldReg : (cycle (regs (at200 0x8010) [(1, 0x2A)])).reg 0 = 0x2A := by decide
/-- V-ALU-19: flag untouched. -/
theorem test_or : (cycle (regs (at200 0x8011) [(0, 0xF0), (1, 0x0F), (15, 1)])).reg 0 = 0xFF ∧
    (cycle (regs (at200 0x8011) [(0, 0xF0), (1, 0x0F), (15, 1)])).reg 15 = 1 := by decide
/-- V-ALU-20. -/
theorem test_and : (cycle (regs (at200 0x8012) [(0, 0xF3), (1, 0x3C)])).reg 0 = 0x30 := by decide
/-- V-ALU-21. -/
theorem test_xor : (cycle (regs (at200 0x8013) [(0, 0xFF), (1, 0x0F)])).reg 0 = 0xF0 := by decide
/-- V-ALU-5 (S3). -/
theorem test_addReg : (cycle (regs (at200 0x8014) [(0, 0xFF), (1, 1)])).reg 0 = 0 ∧
    (cycle (regs (at200 0x8014) [(0, 0xFF), (1, 1)])).reg 15 = 1 := by decide
/-- V-ALU-24, V-ALU-25: `VF` as destination and as source. -/
theorem test_addReg_vf : (cycle (regs (at200 0x8F14) [(15, 0x10), (1, 1)])).reg 15 = 0 ∧
    (cycle (regs (at200 0x80F4) [(0, 1), (15, 5)])).reg 0 = 6 := by decide
/-- V-ALU-8, V-ALU-9: the flag is the borrow. -/
theorem test_sub : (cycle (regs (at200 0x8015) [(0, 5), (1, 3), (15, 9)])).reg 15 = 0 ∧
    (cycle (regs (at200 0x8015) [(1, 1)])).reg 0 = 0xFF ∧ (cycle (regs (at200 0x8015) [(1, 1)])).reg 15 = 1 := by decide
/-- V-ALU-12, V-ALU-27. -/
theorem test_subn : (cycle (regs (at200 0x8017) [(0, 5), (1, 3)])).reg 0 = 0xFE ∧
    (cycle (regs (at200 0x8F17) [(15, 5), (1, 3)])).reg 15 = 1 := by decide
/-- V-ALU-15, V-ALU-29: `V[y]` ignored; the shifted value is lost in `VF`. -/
theorem test_shr : (cycle (regs (at200 0x8016) [(0, 4), (1, 0xFF)])).reg 0 = 2 ∧
    (cycle (regs (at200 0x8F06) [(15, 2)])).reg 15 = 0 := by decide
/-- V-ALU-16, V-ALU-31. -/
theorem test_shl : (cycle (regs (at200 0x801E) [(0, 0x81)])).reg 0 = 2 ∧
    (cycle (regs (at200 0x801E) [(0, 0x81)])).reg 15 = 1 ∧ (cycle (regs (at200 0x8F0E) [(15, 0x40)])).reg 15 = 0 := by decide
/-- V-ALU-33 for every draw (R111: `nn = 0` gives 0 whatever the draw), and `nn = 0xFF` gives the draw itself. -/
theorem test_rnd : (cycle (regs (at200 0xC000) [(0, 9)])).reg 0 = 0 := by
  exact BitVec.and_zero
theorem test_rnd_draw : (cycle (at200 0xC0FF)).reg 0 = Config.rand 0 := by
  exact BitVec.and_allOnes

/-! ### Index and memory -/

/-- V-IM-2. -/
theorem test_ldi : (cycle { at200 0xAFFF with i := 0xFFFF }).i = 0x0FFF := by decide
/-- V-IM-4. -/
theorem test_addi : (cycle { regs (at200 0xF01E) [(0, 2)] with i := 0xFFFF }).i = 1 := by decide
/-- V-IM-6: not masked to a digit. -/
theorem test_font : (cycle (regs (at200 0xF029) [(0, 0xFF)])).i = 0x04FB := by decide
/-- V-IM-7. -/
theorem test_bcd : (cycle { regs (at200 0xF033) [(0, 234)] with i := 0x300 }).bytesAt 0x300 3 = [2, 3, 4] := by decide
/-- V-IM-11, V-IM-12. -/
theorem test_bcd_fault :
    faultOf (step { regs (at200 0xF033) [(0, 255)] with i := 4094 }) = some (.memoryOutOfBounds 0x1000) ∧
    faultOf (step { at200 0xF033 with i := 0xFFFF }) = some (.memoryOutOfBounds 0xFFFF) := by decide
/-- V-IM-13. -/
theorem test_dump : (cycle { regs (at200 0xF155) [(0, 0x6A), (1, 0x2A)] with i := 0x208 }).bytesAt 0x208 3 = [0x6A, 0x2A, 0] ∧
    (cycle { regs (at200 0xF155) [(0, 0x6A), (1, 0x2A)] with i := 0x208 }).i = 0x208 := by decide
/-- V-IM-16, V-IM-17: the last byte of memory and the first beyond it. -/
theorem test_dump_top : (cycle { regs (at200 0xF055) [(0, 9)] with i := 4095 }).byteAt 4095 = 9 ∧
    faultOf (step { at200 0xF055 with i := 4096 }) = some (.memoryOutOfBounds 0x1000) := by decide
/-- V-IM-21: the default font, read through `load`. -/
theorem test_load_font : (cycle (at200 0xFF65)).v.toList =
    [0xF0, 0x90, 0x90, 0x90, 0xF0, 0x20, 0x60, 0x20, 0x20, 0x70, 0xF0, 0x10, 0xF0, 0x80, 0xF0, 0xF0] := by decide
/-- V-IM-20. -/
theorem test_load_fault : faultOf (step { at200 0xF165 with i := 4095 }) = some (.memoryOutOfBounds 0x1000) := by decide

/-! ### Display -/

/-- A screen with the cells listed set. -/
def screen (cells : List (Fin 32 × Fin 64)) : FrameBuffer := cells.foldl (fun fb p => fb.toggle p.1 p.2) FrameBuffer.blank

/-- V-DR-1. -/
theorem test_cls : (cycle { at200 0x00E0 with fb := screen [(3, 5)] }).fb = FrameBuffer.blank := by decide
/-- V-DR-3: one cell turned off, one on, collision. -/
theorem test_drw_collision :
    (cycle ({ at200 0xD011 with i := 0x300, fb := screen [(0, 0)] }.setByte 0x300 0xC0)).fb = screen [(0, 1)] ∧
    (cycle ({ at200 0xD011 with i := 0x300, fb := screen [(0, 0)] }.setByte 0x300 0xC0)).reg 15 = 1 := by decide
/-- V-DR-2, V-DR-8: wrapping in both directions. -/
theorem test_drw_wraps :
    (cycle ({ regs (at200 0xD011) [(0, 60)] with i := 0x300 }.setByte 0x300 0xFF)).fb =
      screen [(0, 60), (0, 61), (0, 62), (0, 63), (0, 0), (0, 1), (0, 2), (0, 3)] ∧
    (cycle ({ regs (at200 0xD011) [(0, 70), (1, 33)] with i := 4095 }.setByte 4095 0x80)).fb = screen [(1, 6)] := by decide

/-- V-DR-6, V-DR-7: the only row, or the second one, out of range. -/
theorem test_drw_fault : faultOf (step { at200 0xD011 with i := 4096 }) = some (.memoryOutOfBounds 0x1000) ∧
    faultOf (step { at200 0xD012 with i := 4095 }) = some (.memoryOutOfBounds 0x1000) := by decide

/-! ### Timers, keys, cycle -/

/-- V-TK-10, V-TK-11, V-TK-12. -/
theorem test_keys : (cycle (regs (at200 0xE09E) [(0, 5)])).pc = 0x202 ∧ (cycle (regs (at200 0xE0A1) [(0, 5)])).pc = 0x202 ∧
    (cycle (regs (at200 0xF00A) [(0, 7)])).pc = 0x202 ∧ (cycle (regs (at200 0xF00A) [(0, 7)])).reg 0 = 7 := by decide
/-- V-TK-1, V-TK-3. -/
theorem test_setst : (cycle (regs (at200 0xF018) [(0, 4)])).st = 3 ∧
    (cycle (regs (at200 0xF018) [(0, 4)])).event = some .audio ∧
    (cycle (at200 0xF018)).event = some (.executed 0xF018) := by decide

/-- The state with the other setting of `DT_COUNTDOWN`. -/
def perCycle (s : State) : State := { s with params := { s.params with dtCountdown := .perCycle } }

/-- V-TK-7. -/
theorem test_setdt : (cycle (regs (at200 0xF015) [(0, 9)])).dt = 9 ∧
    (cycle (perCycle (regs (at200 0xF015) [(0, 9)]))).dt = 8 := by decide
/-- V-TK-8. -/
theorem test_getdt : (cycle (perCycle { at200 0xF007 with dt := 9 })).reg 0 = 9 ∧
    (cycle (perCycle { at200 0xF007 with dt := 9 })).dt = 8 := by decide
/-- V-RS-2. -/
theorem test_reset_cycle : faultOf (step State.reset) = some (.decodeFailure 0x0000 0x200) := by decide
/-- V-RS-1, V-RS-5. -/
theorem test_load_buffer : ((after (hostLoad [0x12, 0x00] (cycle (at200 0x60EA)))).getD State.reset).bytesAt 0x1FF 4 =
      [0, 0x12, 0x00, 0] ∧
    (cycle ((after (hostLoad [0x60] State.reset)).getD State.reset)).pc = 0x202 := by decide
/-- Where no fetch is possible the instruction is placed at `0x200`. -/
theorem test_withFetchWord_top : (cycle ({ State.reset with pc := 0xFFF }.withFetchWord 16 0x60EA)).reg 0 = 0xEA := by decide

/-! ### Witnesses: for every obligation with hypotheses, a state and operands that meet them all -/

/-- The mask clauses of the `Selected` statements: one opcode, its mask and its match, for each row of R66. -/
theorem witness_selected : (([(0x00E0, 0xFFFF, 0x00E0), (0x00EE, 0xFFFF, 0x00EE), (0x1200, 0xF000, 0x1000),
    (0x2208, 0xF000, 0x2000), (0x3014, 0xF000, 0x3000), (0x4014, 0xF000, 0x4000), (0x5010, 0xF00F, 0x5000),
    (0x60EA, 0xF000, 0x6000), (0x70FF, 0xF000, 0x7000), (0x8010, 0xF00F, 0x8000), (0x8011, 0xF00F, 0x8001),
    (0x8012, 0xF00F, 0x8002), (0x8013, 0xF00F, 0x8003), (0x8F14, 0xF00F, 0x8004), (0x8F15, 0xF00F, 0x8005),
    (0x8AB6, 0xF00F, 0x8006), (0x8017, 0xF00F, 0x8007), (0x801E, 0xF00F, 0x800E), (0x9010, 0xF00F, 0x9000)] ++
    [(0xA300, 0xF000, 0xA000), (0xB300, 0xF000, 0xB000), (0xC00F, 0xF000, 0xC000), (0xDABC, 0xF000, 0xD000),
    (0xE59E, 0xF0FF, 0xE09E), (0xE5A1, 0xF0FF, 0xE0A1), (0xF507, 0xF0FF, 0xF007), (0xF50A, 0xF0FF, 0xF00A),
    (0xF515, 0xF0FF, 0xF015), (0xF518, 0xF0FF, 0xF018), (0xF51E, 0xF0FF, 0xF01E), (0xF529, 0xF0FF, 0xF029),
    (0xF533, 0xF0FF, 0xF033), (0xF555, 0xF0FF, 0xF055), (0xFE65, 0xF0FF, 0xF065)] : List (Word × Word × Word)).all
    (fun p => p.1 &&& p.2.1 == p.2.2)) = true := by decide

/-- EncodeOfDecodeIsTheOpcode. -/
theorem witness_decodes : decodeOp 0x3014 = some (.seImm 0 0x14) := by decide

/-- RegisterSkipsAdvanceByFourOrTwo, its third clause. -/
theorem witness_skip_nibble : (0x501F : Word).toNat / 4096 = 5 ∧ (0x501F : Word).toNat % 16 ≠ 0 ∧
    (0x9011 : Word).toNat / 4096 = 9 ∧ (0x9011 : Word).toNat % 16 ≠ 0 := by decide

/-- A state at the last address a fetch can use, with `6001` there (V-CF-24). -/
def atTop : State := { State.reset with pc := 4094 }.withFetchWord 16 0x6001

/-- StepRunsTheDecodedInstr, FetchIsBigEndian: the last fetchable address, a completing instruction and a faulting one. -/
theorem witness_step_runs : atTop.pc.toNat ≤ 4094 ∧
    decode [atTop.byteAt atTop.pc.toNat, atTop.byteAt (atTop.pc.toNat + 1)] = .ok (.ldImm 0 1) ∧
    (after (exec (.ldImm 0 1) atTop)).isSome = true ∧
    decode [(at200 0x00EE).byteAt 0x200, (at200 0x00EE).byteAt 0x201] = .ok .ret ∧
    faultOf (exec .ret (at200 0x00EE)) = some .stackUnderflow := by decide

/-- StepFaultsWhenFetchIsOutOfBounds: the first address no fetch can use. -/
theorem witness_fetch_out : 4094 < ({ State.reset with pc := 4095 } : State).pc.toNat := by decide

/-- StepFaultsOnAnIllegalOpcode. -/
theorem witness_illegal : State.reset.pc.toNat ≤ 4094 ∧
    Opcode.legal (opcodeOf (State.reset.byteAt State.reset.pc.toNat) (State.reset.byteAt (State.reset.pc.toNat + 1))) = false := by
  decide

/-- SoundTimerStepFollowsExecute: a cycle with `ST` above 0 after execute, and one with 0. -/
theorem witness_sound : (∃ u, step { at200 0x6001 with st := 1 } = .next u) ∧ (∃ u, step (at200 0x6001) = .next u) :=
  ⟨exists_next (by decide), exists_next (by decide)⟩

/-- DelayTimerStepObeysTheParameter: both settings, `DT` at the boundary 1. -/
theorem witness_delay : (∃ u, step (perCycle { at200 0x6001 with dt := 1 }) = .next u) ∧
    (perCycle { at200 0x6001 with dt := 1 }).params.dtCountdown = .perCycle ∧
    (∃ u, step { at200 0x6001 with dt := 1 } = .next u) ∧
    ({ at200 0x6001 with dt := 1 } : State).params.dtCountdown = .off :=
  ⟨exists_next (by decide), rfl, exists_next (by decide), rfl⟩

/-- A sound timer set to `k`, then a jump to itself. -/
def soundProgram (k : Byte) : State := (regs (at200 0xF018) [(0, k)]).storeBytes 0x202 [0x12, 0x02]

/-- SettingSoundTimerGivesThatManyAudioCycles, for `n = 2`: one cycle after the setting one, which is not `setst`; with
`k = 2` the last `Audio` cycle (`n = k`) and with `k = 1` the first cycle that reports its opcode (`n = k + 1`). -/
theorem witness_sound_count : ∀ k ∈ ([1, 2] : List Byte), nextInstr (soundProgram k) = some (.setst 0) ∧
    ((soundProgram k).reg 0).toNat = k.toNat ∧
    (∀ (m : Nat) (u : State), 0 < m → m < 2 → Host.Core.run core m (soundProgram k) = .next u →
      ∀ y : Reg, nextInstr u ≠ some (.setst y)) ∧
    (∃ t, Host.Core.run core 2 (soundProgram k) = .next t) := by
  have later : ∀ k : Byte, after (Host.Core.run core 1 (soundProgram k)) = some (cycle (soundProgram k)) →
      nextInstr (cycle (soundProgram k)) = some (.jmp 0x202) → ∀ (m : Nat) (u : State), 0 < m → m < 2 →
      Host.Core.run core m (soundProgram k) = .next u → ∀ y : Reg, nextInstr u ≠ some (.setst y) := by
    intro k h1 hj m u h0 h2 hu y
    obtain rfl : m = 1 := by omega
    obtain rfl : cycle (soundProgram k) = u := Host.Outcome.next.inj ((next_of_after h1).symm.trans hu)
    rw [hj]; simp
  intro k hk
  rcases List.mem_cons.mp hk with rfl | hk
  · exact ⟨by decide, by decide, later 1 (by decide) (by decide), exists_next (by decide)⟩
  · obtain rfl := List.mem_singleton.mp hk
    exact ⟨by decide, by decide, later 2 (by decide) (by decide), exists_next (by decide)⟩

/-- The same at `n = k = 1`: the setting cycle itself is the last `Audio` cycle, with no cycle between. -/
theorem witness_sound_once : nextInstr (soundProgram 1) = some (.setst 0) ∧
    (∃ t, Host.Core.run core 1 (soundProgram 1) = .next t) := ⟨by decide, exists_next (by decide)⟩

/-- StepIsTotalAndOnlyRndReadsTheDraw: another instruction, completing and faulting. -/
theorem witness_not_rnd : (∀ x nn, nextInstr (at200 0x60EA) ≠ some (.rnd x nn)) ∧ (∃ t, step (at200 0x60EA) = .next t) ∧
    (∀ x nn, nextInstr (at200 0x00EE) ≠ some (.rnd x nn)) ∧ (∃ f, step (at200 0x00EE) = .fault f) := by
  have h1 : nextInstr (at200 0x60EA) = some (.ldImm 0 0xEA) := by decide
  have h2 : nextInstr (at200 0x00EE) = some .ret := by decide
  exact ⟨by simp [h1], exists_next (by decide), by simp [h2], ⟨_, fault_of_faultOf (f := .stackUnderflow) (by decide)⟩⟩

/-- StepKeepsTheInvariant: a state with the invariant, its program stored in memory, whose cycle completes. -/
theorem witness_invariant : (at200 0x60EA).Inv ∧ ∃ t, step (at200 0x60EA) = .next t :=
  ⟨⟨by decide, by decide, by decide⟩, exists_next (by decide)⟩

/-- LoadEstablishesTheInvariant. -/
theorem witness_load : ∃ t, hostLoad [0x12, 0x00] State.reset = .next t := exists_next (by decide)

/-- OnlyTheNamedInstrsWriteEachStatePiece, NoInstrReadsTheSoundTimer, MemoryInstrsFaultOnlyOutOfBounds, and the converse
clauses of the two stack faults. -/
theorem witness_exec : (∃ t, exec (.ldImm 0 1) State.reset = .next t) ∧
    (∃ t, exec .ret { State.reset with sp := 1 } = .next t) ∧
    (∃ t, exec (.drw 0 1 0) { State.reset with i := 0xFFFF } = .next t) ∧
    exec .ret State.reset = .fault .stackUnderflow ∧
    exec (.call 0) { State.reset with sp := 16 } = .fault .stackOverflow :=
  ⟨⟨_, rfl⟩, exists_next (by decide), exists_next (by decide), fault_of_faultOf (by decide), fault_of_faultOf (by decide)⟩

/-- RetResumesAtThePoppedAddress and CallPushesTheNextAddressAndJumps at both ends of the stack; their faults. -/
theorem witness_stack : ({ State.reset with sp := 1 } : State).sp.val = (0 : Fin 16).val + 1 ∧
    ({ State.reset with sp := 16 } : State).sp.val = (15 : Fin 16).val + 1 ∧ State.reset.sp.val = (0 : Fin 16).val ∧
    ({ State.reset with sp := 15 } : State).sp.val = (15 : Fin 16).val ∧ State.reset.sp.val = 0 ∧
    ({ State.reset with sp := 16 } : State).sp.val = 16 := by decide

/-- BcdStoresTheThreeDigits, DumpStoresTheRegistersInOrder, LoadFillsTheRegistersInOrder: the last legal bases
(V-IM-10, V-IM-14, V-IM-16). -/
theorem witness_bounds : (4093 : Word).toNat + 2 < 4096 ∧ (4080 : Word).toNat + (15 : Reg).val < 4096 ∧
    (4095 : Word).toNat + (0 : Reg).val < 4096 := by decide

/-- A screen with one cell set and a sprite whose set bits land on it and on its right neighbour (V-DR-3). -/
def drawState : State := { at200 0xD011 with i := 4095, fb := screen [(0, 0)] }.setByte 4095 0xC0

/-- DrwFlipsTheCoveredCellsAndReportsCollision: the last legal base; a cell covered and set, one covered and clear, one not
covered; and a draw of no rows with `I` out of range. -/
theorem witness_draw : drawState.i.toNat + (1 : BitVec 4).toNat ≤ 4096 ∧
    SpriteCovers 0 1 1 drawState 0 0 ∧ drawState.cell 0 0 = true ∧
    SpriteCovers 0 1 1 drawState 0 1 ∧ drawState.cell 0 1 = false ∧
    (0 : BitVec 4).toNat = 0 :=
  ⟨by decide, ⟨0, 0, by decide, by decide, by decide, by decide, by decide⟩, by decide,
    ⟨0, 1, by decide, by decide, by decide, by decide, by decide⟩, by decide, rfl⟩

/-- The same clauses where nothing collides and where a cell is not covered: a sprite byte of zeros. -/
theorem witness_draw_nothing : (∀ r c, ¬ SpriteCovers 0 1 1 { State.reset with i := 0x300 } r c) := by
  rintro r c ⟨row, col, h1, h2, h3, -⟩
  obtain rfl : row = 0 := by change row < 1 at h1; omega
  have : ({ State.reset with i := 0x300 } : State).byteAt (({ State.reset with i := 0x300 } : State).i.toNat + 0) = 0 := by
    decide
  rw [this] at h3
  simp at h3

/-- DrawingTwiceRestoresTheScreen: a draw of a sprite with a set bit on a clear screen, then the same draw again, started
from the state the first one left. -/
theorem witness_draw_twice :
    ∃ t u, exec (.drw 0 1 1) { drawState with fb := FrameBuffer.blank } = .next t ∧ exec (.drw 0 1 1) t = .next u ∧
      SameFb t t ∧ t.reg 0 = ({ drawState with fb := FrameBuffer.blank } : State).reg 0 ∧
      t.reg 1 = ({ drawState with fb := FrameBuffer.blank } : State).reg 1 ∧
      t.i = ({ drawState with fb := FrameBuffer.blank } : State).i ∧
      (∀ row < (1 : BitVec 4).toNat, t.byteAt (4095 + row) =
        ({ drawState with fb := FrameBuffer.blank } : State).byteAt (4095 + row)) ∧
      (∃ r c, SpriteCovers 0 1 1 { drawState with fb := FrameBuffer.blank } r c) ∧
      (∀ r c, SpriteCovers 0 1 1 { drawState with fb := FrameBuffer.blank } r c →
        ({ drawState with fb := FrameBuffer.blank } : State).cell r c = false) :=
  ⟨_, _, rfl, rfl, fun _ _ => rfl, rfl, rfl, rfl, fun _ _ => rfl,
    ⟨0, 0, 0, 0, by decide, by decide, by decide, by decide, by decide⟩,
    fun r c _ => by simp [State.cell, FrameBuffer.cell, FrameBuffer.blank]⟩

/-- SetdtSetsTheDelayTimer, SetstSetsTheSoundTimer: their second clauses, both settings and both values. -/
theorem witness_timers : nextInstr (regs (at200 0xF015) [(0, 9)]) = some (.setdt 0) ∧
    nextInstr (perCycle (regs (at200 0xF015) [(0, 9)])) = some (.setdt 0) ∧
    nextInstr (regs (at200 0xF018) [(0, 4)]) = some (.setst 0) ∧ 0 < ((regs (at200 0xF018) [(0, 4)]).reg 0).toNat ∧
    nextInstr (at200 0xF018) = some (.setst 0) ∧ ((at200 0xF018).reg 0).toNat = 0 := by decide

/-- LoadResetsEverythingAndPlacesTheProgram, LoadOfALongerBufferIsRefused: the longest buffer that fits (V-RS-3) and the
shortest that does not (V-RS-4), with addresses at the edges of each clause. -/
theorem witness_load_lengths : (List.replicate 3584 (0 : Byte)).length ≤ 3584 ∧ 3584 < (List.replicate 3585 (0 : Byte)).length ∧
    79 < 80 ∧ (80 ≤ 80 ∧ (80 < 0x200 ∨ 0x200 + 3584 ≤ 80)) ∧ (80 ≤ 0x1FF ∧ 0x1FF < 0x200) ∧ 3583 < 3584 ∧
    (80 ≤ 0x202 ∧ 0x200 + 2 ≤ 0x202) := by
  rw [List.length_replicate, List.length_replicate]; decide

/-- FinalStatesStayAsTheyAre: a jump to itself at `0x200`. -/
theorem witness_final : (at200 0x1200).Final :=
  ⟨⟨0x200, by decide, by decide⟩, by decide, by decide⟩

/-- StoredBytesAreFetchedNext: P8's dump over the whole next instruction, and a bcd that covers its second byte only, at the
last `PC` after which a fetch is in bounds. -/
theorem witness_self_modifying :
    nextInstr { at200 0xF155 with i := 0x202 } = some (.dump 1) ∧ (at200 0xF155).pc.toNat ≤ 4092 ∧
    (∃ t, step { at200 0xF155 with i := 0x202 } = .next t) ∧
    nextInstr ({ State.reset with pc := 4092, i := 4093 }.withFetchWord 16 0xF033) = some (.bcd 0) ∧
    ({ State.reset with pc := 4092, i := 4093 } : State).pc.toNat ≤ 4092 ∧
    (∃ t, step ({ State.reset with pc := 4092, i := 4093 }.withFetchWord 16 0xF033) = .next t) :=
  ⟨by decide, by decide, exists_next (by decide), by decide, by decide, exists_next (by decide)⟩

/-- R53, R123: `F033` at `0x200` with `V0 = 16` and `I = 0x201` rewrites its own second byte and both bytes after it, so that
the next fetch reads `01 06`; with `I = 0x203` it reads the first byte as it stood. -/
theorem test_stored_then_fetched :
    (fetch (cycle { regs (at200 0xF033) [(0, 16)] with i := 0x201 })).toOption = some 0x0106 ∧
    (fetch (cycle ({ regs (at200 0xF033) [(0, 216)] with i := 0x203 }.setByte 0x202 0xA0))).toOption = some 0xA002 := by
  decide

end Sys2Proof.Tests
end

/-! ## The state: what each instruction leaves unchanged, and the invariant of the reachable states (spec 10_state.md) -/

namespace Sys2Proof.Machine

/-! ### Addresses as numbers -/

@[simp] theorem immAddr_toNat (nnn : BitVec 12) : (immAddr nnn).toNat = nnn.toNat := by
  simp [immAddr, show nnn.toNat % 65536 = nnn.toNat by omega]

@[simp] theorem wideReg_toNat (s : State) (x : Reg) : (s.wideReg x).toNat = (s.reg x).toNat := by
  simp [State.wideReg, show (s.reg x).toNat % 65536 = (s.reg x).toNat by omega]

/-- Where a fetch succeeded, `PC + n` does not wrap (R27). -/
theorem pc_add_toNat {s : State} (hpc : s.pc.toNat ≤ 4094) {n : Word} (hn : n.toNat ≤ 4) :
    (s.pc + n).toNat = s.pc.toNat + n.toNat := by
  rw [BitVec.toNat_add]; omega

/-! ### Completed returns and calls -/

/-- Everything a completed return does (R90). -/
theorem execRet_next {s t : State} (h : execRet s = .next t) :
    ∃ hs : 0 < s.sp.val,
      t = ({ s with sp := ⟨s.sp.val - 1, by omega⟩ } : State).setPc (s.slot ⟨s.sp.val - 1, by omega⟩) := by
  unfold execRet at h
  split at h
  · rename_i target u hpop
    obtain ⟨hs, rfl, rfl⟩ := pop_some hpop
    exact ⟨hs, (Host.Outcome.next.inj h).symm⟩
  · cases h

/-- Everything a completed call does (R92). -/
theorem execCall_next {nnn : BitVec 12} {s t : State} (h : execCall nnn s = .next t) :
    ∃ hs : s.sp.val < 16,
      t = ({ s with stack := s.stack.set s.sp.val (s.pc + 2), sp := ⟨s.sp.val + 1, by omega⟩ } : State).setPc
        (immAddr nnn) := by
  unfold execCall at h
  split at h
  · rename_i u hpush
    obtain ⟨hs, rfl⟩ := push_some hpush
    exact ⟨hs, (Host.Outcome.next.inj h).symm⟩
  · cases h

/-- A completed call writes the slot `SP` counts to, and no other (R92). -/
theorem slot_execCall {nnn : BitVec 12} {s t : State} (h : execCall nnn s = .next t) (k : Fin 16) :
    t.slot k = if k.val = s.sp.val then s.pc + 2 else s.slot k := by
  obtain ⟨hs, rfl⟩ := execCall_next h
  simp [State.slot, Vector.getElem_set, eq_comm]

/-! ### What each instruction leaves unchanged -/

/-- The instructions that set `PC` otherwise than to `PC + 2` (R84). -/
def Instr.controlsFlow : Instr → Bool
  | .ret | .jmp _ | .call _ | .seImm _ _ | .sneImm _ _ | .seReg _ _ | .sneReg _ _ | .jmp0 _ => true
  | _ => false

/-- The column "written by" of R20, field by field: what `i` may have changed between `s` and `t`.  Stronger than the
obligation in that it speaks of the fields themselves, not of what they read as, and of `PC` too.
Where a field holds by the laws of the state's updates, its default proof is that; an instruction's lemma then gives only the
fields in which the instruction differs. -/
structure Effect (i : Instr) (s t : State) : Prop where
  regs : SameRegsExcept (Instr.writtenRegs i) s t := by intros _ _; simp
  index : (∀ nnn, i ≠ .ldi nnn) → (∀ x, i ≠ .addi x) → (∀ x, i ≠ .font x) → t.i = s.i := by simp
  pc : Instr.controlsFlow i = false → t.pc = s.pc + 2 := by simp [Instr.controlsFlow]
  sp : (∀ nnn, i ≠ .call nnn) → i ≠ .ret → t.sp = s.sp := by simp
  stack : (∀ nnn, i ≠ .call nnn) → t.stack = s.stack := by simp
  dt : (∀ x, i ≠ .setdt x) → t.dt = s.dt := by simp
  st : (∀ x, i ≠ .setst x) → t.st = s.st := by simp
  mem : (∀ x, i ≠ .bcd x) → (∀ x, i ≠ .dump x) → t.mem = s.mem := by simp
  fb : i ≠ .cls → (∀ x y n, i ≠ .drw x y n) → t.fb = s.fb := by simp
  params : t.params = s.params := by simp
  draws : t.draws = s.draws := by simp
  event : t.event = s.event := by simp

section

variable {i : Instr} {s t : State}

/-! The effect of each shared ending, for whatever instruction ends so. -/

theorem effect_advance {n : Word} (hn : Instr.controlsFlow i = false → n = 2) : Effect i s (s.advance n) where
  pc hi := by simp [hn hi]

theorem effect_setPc {w : Word} (hi : Instr.controlsFlow i = true) : Effect i s (s.setPc w) where
  pc := by simp [hi]

theorem effect_finish {x : Reg} {b : Byte} (hx : x ∈ Instr.writtenRegs i) (h : s.finish x b = .next t) :
    Effect i s t := by
  cases h
  exact { regs := fun r hr => by simp [reg_setReg, show r ≠ x from fun e => hr (e ▸ hx)] }

theorem effect_finishFlag {x : Reg} {b f : Byte} (hw : Instr.writtenRegs i = [x, VF])
    (h : s.finishFlag x b f = .next t) : Effect i s t := by
  cases h
  change Effect i s (((s.setReg x b).setReg VF f).advance 2)
  exact { regs := fun r hr => by simp_all [reg_setReg] }

theorem effect_finishIndex {a : Word} (hi : (∃ nnn, i = .ldi nnn) ∨ (∃ x, i = .addi x) ∨ ∃ x, i = .font x)
    (h : s.finishIndex a = .next t) : Effect i s t := by
  cases h
  exact { regs := fun _ _ => rfl, index := by grind }

theorem effect_storeBytes {a : Nat} {bs : List Byte} (hi : (∃ x, i = .bcd x) ∨ ∃ x, i = .dump x) :
    Effect i s ((s.storeBytes a bs).advance 2) where
  mem := by grind

/-! ### The effect of every instruction -/

theorem effect_execRet (h : execRet s = .next t) : Effect .ret s t := by
  obtain ⟨_, rfl⟩ := execRet_next h
  exact { regs := fun _ _ => rfl, pc := nofun }

theorem effect_execCall {nnn : BitVec 12} (h : execCall nnn s = .next t) : Effect (.call nnn) s t := by
  obtain ⟨_, rfl⟩ := execCall_next h
  exact { regs := fun _ _ => rfl, pc := nofun }

theorem effect_execCls (h : execCls s = .next t) : Effect .cls s t := by
  cases h
  exact { regs := fun _ _ => rfl }

theorem effect_execSetdt {x : Reg} (h : execSetdt x s = .next t) : Effect (.setdt x) s t := by
  cases h
  exact { regs := fun _ _ => rfl }

theorem effect_execSetst {x : Reg} (h : execSetst x s = .next t) : Effect (.setst x) s t := by
  cases h
  exact { regs := fun _ _ => rfl }

theorem effect_execDrw {x y : Reg} {n : BitVec 4} (h : execDrw x y n s = .next t) : Effect (.drw x y n) s t := by
  cases (indexed_next h).2
  refine { regs := fun r hr => ?_ }
  have hr : r ≠ VF := by simpa [Instr.writtenRegs] using hr
  simp only [advance_reg, reg_setReg, if_neg hr]
  rfl

theorem effect_execLoad {x : Reg} (h : execLoad x s = .next t) : Effect (.load x) s t := by
  cases (indexed_next h).2
  refine { regs := fun r hr => ?_ }
  have hr : x.val < r.val := by simpa [Instr.writtenRegs] using hr
  rw [advance_reg, reg_setRegs _ _ _ (by rw [bytesAt_length]; omega), dif_neg (by rw [bytesAt_length]; omega)]

theorem effect_execBcd {x : Reg} (h : execBcd x s = .next t) : Effect (.bcd x) s t := by
  cases (indexed_next h).2
  exact effect_storeBytes (.inl ⟨x, rfl⟩)

theorem effect_execDump {x : Reg} (h : execDump x s = .next t) : Effect (.dump x) s t := by
  cases (indexed_next h).2
  exact effect_storeBytes (.inr ⟨x, rfl⟩)

/-- What a completed instruction may have changed, for all 34 (R20). -/
theorem exec_effect (h : exec i s = .next t) : Effect i s t := by
  cases i with
  | cls => exact effect_execCls h
  | ret => exact effect_execRet h
  | call => exact effect_execCall h
  | jmp | jmp0 => cases h; exact effect_setPc rfl
  | seImm | sneImm | seReg | sneReg => cases h; exact effect_advance nofun
  | skp | sknp | waitkey => cases h; exact effect_advance fun _ => rfl
  | ldImm | addImm | ldReg | or | and | xor | rnd | getdt => exact effect_finish (List.mem_singleton_self _) h
  | addReg | sub | shr | subn | shl => exact effect_finishFlag rfl h
  | ldi nnn => exact effect_finishIndex (.inl ⟨nnn, rfl⟩) h
  | addi x => exact effect_finishIndex (.inr (.inl ⟨x, rfl⟩)) h
  | font x => exact effect_finishIndex (.inr (.inr ⟨x, rfl⟩)) h
  | drw => exact effect_execDrw h
  | setdt => exact effect_execSetdt h
  | setst => exact effect_execSetst h
  | bcd => exact effect_execBcd h
  | dump => exact effect_execDump h
  | load => exact effect_execLoad h

theorem Effect.sameMem (e : Effect i s t) (hb : ∀ x, i ≠ .bcd x) (hd : ∀ x, i ≠ .dump x) : SameMem s t := fun a => by
  simp only [State.byteAt, e.params, e.mem hb hd]

/-! ### The invariant of the reachable states -/

/-- Memory stays in its canonical form: the two instructions that store have checked their bounds (R124). -/
theorem exec_keeps_memWf (h : exec i s = .next t) (hwf : Memory.wf s.params.font s.mem = true) :
    Memory.wf t.params.font t.mem = true := by
  have e := exec_effect h
  cases i with
  | bcd x =>
    obtain ⟨hb, ht⟩ := indexed_next h
    cases ht
    exact wf_storeBytes s _ _ (by simp [elemAddr_zero, bcdDigits]; omega) hwf
  | dump x =>
    obtain ⟨hb, ht⟩ := indexed_next h
    cases ht
    exact wf_storeBytes s _ _ (by rw [elemAddr_zero, regsUpTo_length]; omega) hwf
  | _ => rw [e.params, e.mem nofun nofun]; exact hwf

/-- The slots stay at most 4096: a call pushes the address after itself, and it was fetched at 4094 or below (R90). -/
theorem exec_keeps_slotLe (h : exec i s = .next t) (hpc : s.pc.toNat ≤ 4094) (hs : ∀ k, (s.slot k).toNat ≤ 4096)
    (k : Fin 16) : (t.slot k).toNat ≤ 4096 := by
  have e := exec_effect h
  cases i with
  | call nnn =>
    have h2 : (s.pc + 2).toNat = s.pc.toNat + 2 := pc_add_toNat hpc (by decide)
    rw [slot_execCall h]
    split
    · omega
    · exact hs k
  | _ => simpa only [State.slot, e.stack nofun] using hs k

theorem skipIf_pc_le (hpc : s.pc.toNat ≤ 4094) (c : Bool) : (s.skipIf c).pc.toNat ≤ 0x10FE := by
  rw [skipIf_pc, pc_add_toNat hpc (by cases c <;> decide)]
  cases c <;> simp <;> omega

/-- `PC` stays at most `0x10FE`, which is what an unmasked jmp0 can reach (R27, R97). -/
theorem exec_pc_le (h : exec i s = .next t) (hpc : s.pc.toNat ≤ 4094) (hs : ∀ k, (s.slot k).toNat ≤ 4096) :
    t.pc.toNat ≤ 0x10FE := by
  have e := exec_effect h
  cases i with
  | ret =>
    obtain ⟨_, rfl⟩ := execRet_next h
    exact (hs _).trans (by decide)
  | jmp nnn =>
    cases h
    simp only [setPc_pc, immAddr_toNat]
    omega
  | call nnn =>
    obtain ⟨_, rfl⟩ := execCall_next h
    simp only [setPc_pc, immAddr_toNat]
    omega
  | jmp0 nnn =>
    cases h
    simp only [setPc_pc, BitVec.toNat_add, immAddr_toNat, wideReg_toNat]
    omega
  | seImm | sneImm | seReg | sneReg => cases h; exact skipIf_pc_le hpc _
  | _ =>
    rw [e.pc rfl, pc_add_toNat hpc (by decide)]
    exact Nat.add_le_add hpc (by decide : 2 ≤ 256)

/-- Executing an instruction that was fetched keeps the invariant. -/
theorem exec_keeps_inv (h : exec i s = .next t) (hpc : s.pc.toNat ≤ 4094) (hs : s.Inv) : t.Inv where
  memWf := exec_keeps_memWf h hs.memWf
  slotLe := exec_keeps_slotLe h hpc hs.slotLe
  pcLe := exec_pc_le h hpc hs.slotLe

/-- The epilogue writes none of what the invariant speaks of (R85 to R87). -/
theorem epilogue_keeps_inv (op : Word) (hs : s.Inv) : (epilogue op s).Inv where
  memWf := by simpa using hs.memWf
  slotLe := by simpa using hs.slotLe
  pcLe := by simpa using hs.pcLe

end

/-! ### The statements settled -/

/-- Settles O15: what completes was fetched, so `PC` was at most 4094; execute and the epilogue keep the invariant. -/
theorem stepKeepsTheInvariant : Obligations.StepKeepsTheInvariant := by
  intro s u hs h
  obtain ⟨op, i, t, hf, -, he, rfl⟩ := step_next h
  exact epilogue_keeps_inv op (exec_keeps_inv he (fetch_inv hf).1 hs)

/-- Settles O18: the obligation's clauses are those of `Effect`, read through the accessors. -/
theorem onlyTheNamedInstrsWriteEachStatePiece : Obligations.OnlyTheNamedInstrsWriteEachStatePiece := by
  intro i s t h
  have e := exec_effect h
  refine ⟨e.regs, e.index, e.sp, fun hc k => ?_, e.dt, e.st, e.sameMem, fun hc hd r c => ?_, e.params, e.draws, e.event⟩
  · simp only [State.slot, e.stack hc]
  · simp only [State.cell, e.fb hc hd]

/-- Settles O16: nothing is listed in memory, the slots are 0, and `PC` is `0x200`. -/
theorem resetHasTheInvariant : Obligations.ResetHasTheInvariant where
  memWf := rfl
  slotLe k := by simp [State.slot, State.reset]
  pcLe := by decide

end Sys2Proof.Machine

/-! ## Memory: the byte order of an opcode, and stores seen by the next fetch (spec 20_memory.md) -/

namespace Sys2Proof.Machine

/-! ### The two halves of an opcode (R40) -/

theorem opcodeOf_highByte (hi lo : Byte) : (opcodeOf hi lo).extractLsb 15 8 = hi := by
  apply BitVec.eq_of_toNat_eq
  have := lo.isLt
  simp [opcodeOf_toNat, Nat.shiftRight_eq_div_pow]
  omega

theorem opcodeOf_lowByte (hi lo : Byte) : (opcodeOf hi lo).extractLsb 7 0 = lo := by
  apply BitVec.eq_of_toNat_eq
  simpa [opcodeOf_toNat] using lo.isLt

/-! ### What memory reads as after a store (R123 to R125) -/

/-- Bytes stored at `I` lie over memory as `State.overlaid` says. -/
theorem byteAt_storeBytes_overlaid {s : State} {bs : List Byte} {stored : Nat → Byte}
    (h : ∀ (k : Nat) (hk : k < bs.length), bs[k] = stored k) (a : Nat) :
    (s.storeBytes s.i.toNat bs).byteAt a = s.overlaid bs.length stored a := by
  rw [byteAt_storeBytes, State.overlaid]
  split
  · exact h _ _
  · rfl

/-- Digit `k` of a byte, the hundreds first (R123). -/
theorem bcdDigits_getElem (v : Byte) (k : Nat) (hk : k < (bcdDigits v).length) :
    (bcdDigits v)[k] = BitVec.ofNat 8 (v.toNat / 10 ^ (2 - k) % 10) := by
  have hundreds : v.toNat / 100 % 10 = v.toNat / 100 := by omega
  match k, hk with
  | 0, _ => simp [bcdDigits, hundreds]
  | 1, _ => rfl
  | 2, _ => simp [bcdDigits]

theorem byteAt_execDump {x : Reg} {s t : State} (h : execDump x s = .next t) (a : Nat) :
    t.byteAt a = s.overlaid (x.val + 1) (fun k => s.reg (Fin.ofNat 16 k)) a := by
  cases (indexed_next h).2
  rw [advance_byteAt, elemAddr_zero, byteAt_storeBytes_overlaid (stored := fun k => s.reg (Fin.ofNat 16 k)),
    regsUpTo_length]
  intro k hk
  have hk16 : k < 16 := by rw [regsUpTo_length] at hk; omega
  rw [regsUpTo_getElem s x ⟨k, hk16⟩ hk]
  congr 1
  exact Fin.ext (Nat.mod_eq_of_lt hk16).symm

theorem byteAt_execBcd {x : Reg} {s t : State} (h : execBcd x s = .next t) (a : Nat) :
    t.byteAt a = s.overlaid 3 (fun k => BitVec.ofNat 8 ((s.reg x).toNat / 10 ^ (2 - k) % 10)) a := by
  cases (indexed_next h).2
  exact byteAt_storeBytes_overlaid (s := s) (bcdDigits_getElem (s.reg x)) a

/-! ### The cycle after a completed one -/

/-- A completed cycle runs the instruction that `nextInstr` names, then the epilogue (R80). -/
theorem step_next_of_nextInstr {s t : State} {i : Instr} (h : step s = .next t) (hi : nextInstr s = some i) :
    ∃ op u, exec i s = .next u ∧ t = epilogue op u := by
  obtain ⟨op, j, u, hf, hd, he, rfl⟩ := step_next h
  obtain ⟨op', hf', hd'⟩ := nextInstr_some hi
  cases hf.symm.trans hf'
  cases hd.symm.trans hd'
  exact ⟨op, u, he, rfl⟩

/-- Where the instruction only advances `PC`, the next fetch reads at `PC + 2` the memory that execute left: there is nothing
between a store and the fetch (R53, decision D20). -/
theorem fetch_after_step {s t : State} {i : Instr} (hpc : s.pc.toNat ≤ 4092) (h : step s = .next t)
    (hi : nextInstr s = some i) (hflow : Instr.controlsFlow i = false) :
    ∃ u, exec i s = .next u ∧ fetch t = .ok (opcodeOf (u.byteAt (s.pc.toNat + 2)) (u.byteAt (s.pc.toNat + 3))) := by
  obtain ⟨op, u, he, rfl⟩ := step_next_of_nextInstr h hi
  have hpc' : (epilogue op u).pc.toNat = s.pc.toNat + 2 := by
    rw [epilogue_pc, (exec_effect he).pc hflow, pc_add_toNat (by omega) (by decide)]
    rfl
  refine ⟨u, he, ?_⟩
  rw [fetch_ok (by omega), hpc', epilogue_byteAt, epilogue_byteAt]

/-! ### The statements settled -/

/-- Settles O57: the fetch after the store reads the memory it left, and that is memory with the stored bytes over it. -/
theorem storedBytesAreFetchedNext : Obligations.StoredBytesAreFetchedNext := by
  intro s t x hpc h
  constructor
  · intro hi
    obtain ⟨u, he, hf⟩ := fetch_after_step hpc h hi rfl
    rw [hf, byteAt_execDump he, byteAt_execDump he]
  · intro hi
    obtain ⟨u, he, hf⟩ := fetch_after_step hpc h hi rfl
    rw [hf, byteAt_execBcd he, byteAt_execBcd he]

/-- Settles O7: fetch builds its opcode from the two bytes, and the encoder's two bytes build its opcode again. -/
theorem fetchIsBigEndian : Obligations.FetchIsBigEndian := by
  constructor
  · intro s hpc
    exact ⟨_, fetch_ok hpc, opcodeOf_toNat _ _, opcodeOf_highByte _ _, opcodeOf_lowByte _ _⟩
  · intro i
    refine ⟨(encode i).extractLsb 15 8, (encode i).extractLsb 7 0, rfl, ?_⟩
    rw [← opcodeOf_toNat, opcodeOf_wordBytes]

end Sys2Proof.Machine

/-! ## Encoding: decoder and encoder are inverse, and the decoder rejects what R69 lists (spec 30_encoding.md) -/

namespace Sys2Proof

/-! ### Masked opcodes, built from their class and their low bits -/

section Masked

variable {op : Word} {c sub : Nat}

theorem and_F000_of_class (hc : op.toNat / 4096 = c) : op &&& 0xF000 = BitVec.ofNat 16 (c * 4096) := by
  apply BitVec.eq_of_toNat_eq
  rw [and_F000, BitVec.toNat_ofNat]
  omega

theorem and_F00F_of_class (hc : op.toNat / 4096 = c) (hs : op.toNat % 16 = sub) :
    op &&& 0xF00F = BitVec.ofNat 16 (c * 4096 + sub) := by
  apply BitVec.eq_of_toNat_eq
  rw [and_F00F, BitVec.toNat_ofNat]
  omega

theorem and_F0FF_of_class (hc : op.toNat / 4096 = c) (hs : op.toNat % 256 = sub) :
    op &&& 0xF0FF = BitVec.ofNat 16 (c * 4096 + sub) := by
  apply BitVec.eq_of_toNat_eq
  rw [and_F0FF, BitVec.toNat_ofNat]
  omega

end Masked

/-- The decoder reads the two bytes of an opcode, whatever follows them, as that opcode (R40). -/
theorem decode_wordBytes_append {op : Word} {i : Instr} (h : decodeOp op = some i) (rest : List Byte) :
    decode (wordBytes op ++ rest) = .ok i := by
  simp [wordBytes, decode, opcodeOf_wordBytes, h]

/-! ### Every format decodes what it encodes

One lemma per format of R63: where the `k`-th row of the map has the format's mask and builds from the format's fields, its
encoding is selected by that row and the fields read back are the operands. -/

theorem decodeOp_encodeA (c k : Nat) (hc : c < 16) {build : BitVec 12 → Instr}
    (hr : opcodeMap[k]? = some ⟨0xF000, BitVec.ofNat 16 (c * 4096), fun op => build (fieldNNN op)⟩) (nnn : BitVec 12) :
    decodeOp (encodeA (BitVec.ofNat 16 (c * 4096)) nnn) = some (build nnn) := by
  have h := encodeA_toNat c hc nnn
  have hn := nnn.isLt
  generalize encodeA (BitVec.ofNat 16 (c * 4096)) nnn = op at h ⊢
  have hfield : fieldNNN op = nnn := BitVec.eq_of_toNat_eq (by rw [fieldNNN_toNat]; omega)
  simpa only [hfield] using selected_at hr op (and_F000_of_class (by omega))

theorem decodeOp_encodeXI (c k : Nat) (hc : c < 16) {build : Reg → BitVec 8 → Instr}
    (hr : opcodeMap[k]? = some ⟨0xF000, BitVec.ofNat 16 (c * 4096), fun op => build (fieldX op) (fieldNN op)⟩)
    (x : Reg) (nn : BitVec 8) :
    decodeOp (encodeXI (BitVec.ofNat 16 (c * 4096)) x nn) = some (build x nn) := by
  have h := encodeXI_toNat c hc x nn
  have hn := nn.isLt
  generalize encodeXI (BitVec.ofNat 16 (c * 4096)) x nn = op at h ⊢
  have hx : fieldX op = x := Fin.ext (by rw [fieldX_val]; omega)
  have hnn : fieldNN op = nn := BitVec.eq_of_toNat_eq (by rw [fieldNN_toNat]; omega)
  simpa only [hx, hnn] using selected_at hr op (and_F000_of_class (by omega))

theorem decodeOp_encodeXY (c sub k : Nat) (hc : c < 16) (hs : sub < 16) {build : Reg → Reg → Instr}
    (hr : opcodeMap[k]? = some ⟨0xF00F, BitVec.ofNat 16 (c * 4096 + sub), fun op => build (fieldX op) (fieldY op)⟩)
    (x y : Reg) : decodeOp (encodeXY (BitVec.ofNat 16 (c * 4096 + sub)) x y) = some (build x y) := by
  have h := encodeXY_toNat c sub hc hs x y
  generalize encodeXY (BitVec.ofNat 16 (c * 4096 + sub)) x y = op at h ⊢
  have hx : fieldX op = x := Fin.ext (by rw [fieldX_val]; omega)
  have hy : fieldY op = y := Fin.ext (by rw [fieldY_val]; omega)
  simpa only [hx, hy] using selected_at hr op (and_F00F_of_class (by omega) (by omega))

theorem decodeOp_encodeXYN (c k : Nat) (hc : c < 16) {build : Reg → Reg → BitVec 4 → Instr}
    (hr : opcodeMap[k]? =
      some ⟨0xF000, BitVec.ofNat 16 (c * 4096), fun op => build (fieldX op) (fieldY op) (fieldN op)⟩)
    (x y : Reg) (n : BitVec 4) :
    decodeOp (encodeXYN (BitVec.ofNat 16 (c * 4096)) x y n) = some (build x y n) := by
  have h := encodeXYN_toNat c hc x y n
  have hn := n.isLt
  generalize encodeXYN (BitVec.ofNat 16 (c * 4096)) x y n = op at h ⊢
  have hx : fieldX op = x := Fin.ext (by rw [fieldX_val]; omega)
  have hy : fieldY op = y := Fin.ext (by rw [fieldY_val]; omega)
  have hnn : fieldN op = n := BitVec.eq_of_toNat_eq (by rw [fieldN_toNat]; omega)
  simpa only [hx, hy, hnn] using selected_at hr op (and_F000_of_class (by omega))

theorem decodeOp_encodeX (c sub k : Nat) (hc : c < 16) (hs : sub < 256) {build : Reg → Instr}
    (hr : opcodeMap[k]? = some ⟨0xF0FF, BitVec.ofNat 16 (c * 4096 + sub), fun op => build (fieldX op)⟩) (x : Reg) :
    decodeOp (encodeX (BitVec.ofNat 16 (c * 4096 + sub)) x) = some (build x) := by
  have h := encodeX_toNat c sub hc hs x
  generalize encodeX (BitVec.ofNat 16 (c * 4096 + sub)) x = op at h ⊢
  have hx : fieldX op = x := Fin.ext (by rw [fieldX_val]; omega)
  simpa only [hx] using selected_at hr op (and_F0FF_of_class (by omega) (by omega))

/-- The decoder undoes the encoder (R71): each instruction by its format, its class, its fixed low bits and its row. -/
theorem decodeOp_encode (i : Instr) : decodeOp (encode i) = some i := by
  cases i with
  | cls => exact selected_at (k := 0) rfl 0x00E0 rfl
  | ret => exact selected_at (k := 1) rfl 0x00EE rfl
  | jmp nnn => exact decodeOp_encodeA 0x1 2 (by decide) rfl nnn
  | call nnn => exact decodeOp_encodeA 0x2 3 (by decide) rfl nnn
  | seImm x nn => exact decodeOp_encodeXI 0x3 4 (by decide) rfl x nn
  | sneImm x nn => exact decodeOp_encodeXI 0x4 5 (by decide) rfl x nn
  | seReg x y => exact decodeOp_encodeXY 0x5 0x0 6 (by decide) (by decide) rfl x y
  | ldImm x nn => exact decodeOp_encodeXI 0x6 7 (by decide) rfl x nn
  | addImm x nn => exact decodeOp_encodeXI 0x7 8 (by decide) rfl x nn
  | ldReg x y => exact decodeOp_encodeXY 0x8 0x0 9 (by decide) (by decide) rfl x y
  | or x y => exact decodeOp_encodeXY 0x8 0x1 10 (by decide) (by decide) rfl x y
  | and x y => exact decodeOp_encodeXY 0x8 0x2 11 (by decide) (by decide) rfl x y
  | xor x y => exact decodeOp_encodeXY 0x8 0x3 12 (by decide) (by decide) rfl x y
  | addReg x y => exact decodeOp_encodeXY 0x8 0x4 13 (by decide) (by decide) rfl x y
  | sub x y => exact decodeOp_encodeXY 0x8 0x5 14 (by decide) (by decide) rfl x y
  | shr x y => exact decodeOp_encodeXY 0x8 0x6 15 (by decide) (by decide) rfl x y
  | subn x y => exact decodeOp_encodeXY 0x8 0x7 16 (by decide) (by decide) rfl x y
  | shl x y => exact decodeOp_encodeXY 0x8 0xE 17 (by decide) (by decide) rfl x y
  | sneReg x y => exact decodeOp_encodeXY 0x9 0x0 18 (by decide) (by decide) rfl x y
  | ldi nnn => exact decodeOp_encodeA 0xA 19 (by decide) rfl nnn
  | jmp0 nnn => exact decodeOp_encodeA 0xB 20 (by decide) rfl nnn
  | rnd x nn => exact decodeOp_encodeXI 0xC 21 (by decide) rfl x nn
  | drw x y n => exact decodeOp_encodeXYN 0xD 22 (by decide) rfl x y n
  | skp x => exact decodeOp_encodeX 0xE 0x9E 23 (by decide) (by decide) rfl x
  | sknp x => exact decodeOp_encodeX 0xE 0xA1 24 (by decide) (by decide) rfl x
  | getdt x => exact decodeOp_encodeX 0xF 0x07 25 (by decide) (by decide) rfl x
  | waitkey x => exact decodeOp_encodeX 0xF 0x0A 26 (by decide) (by decide) rfl x
  | setdt x => exact decodeOp_encodeX 0xF 0x15 27 (by decide) (by decide) rfl x
  | setst x => exact decodeOp_encodeX 0xF 0x18 28 (by decide) (by decide) rfl x
  | addi x => exact decodeOp_encodeX 0xF 0x1E 29 (by decide) (by decide) rfl x
  | font x => exact decodeOp_encodeX 0xF 0x29 30 (by decide) (by decide) rfl x
  | bcd x => exact decodeOp_encodeX 0xF 0x33 31 (by decide) (by decide) rfl x
  | dump x => exact decodeOp_encodeX 0xF 0x55 32 (by decide) (by decide) rfl x
  | load x => exact decodeOp_encodeX 0xF 0x65 33 (by decide) (by decide) rfl x

/-! ### Every format encodes the fields of an opcode to that opcode

The hypothesis is a row's selection (R65), so that each lemma is the claim for every row of its format. -/

section Fields

variable {op value : Word}

theorem encodeA_fields (h : op &&& 0xF000 = value) : encodeA value (fieldNNN op) = op := by
  apply BitVec.eq_of_toNat_eq
  rw [← h, and_F000_of_class rfl, encodeA_toNat _ (by omega), fieldNNN_toNat]
  omega

theorem encodeXI_fields (h : op &&& 0xF000 = value) : encodeXI value (fieldX op) (fieldNN op) = op := by
  apply BitVec.eq_of_toNat_eq
  rw [← h, and_F000_of_class rfl, encodeXI_toNat _ (by omega), fieldX_val, fieldNN_toNat]
  omega

theorem encodeXY_fields (h : op &&& 0xF00F = value) : encodeXY value (fieldX op) (fieldY op) = op := by
  apply BitVec.eq_of_toNat_eq
  rw [← h, and_F00F_of_class rfl rfl, encodeXY_toNat _ _ (by omega) (by omega), fieldX_val, fieldY_val]
  omega

theorem encodeXYN_fields (h : op &&& 0xF000 = value) : encodeXYN value (fieldX op) (fieldY op) (fieldN op) = op := by
  apply BitVec.eq_of_toNat_eq
  rw [← h, and_F000_of_class rfl, encodeXYN_toNat _ (by omega), fieldX_val, fieldY_val, fieldN_toNat]
  omega

theorem encodeX_fields (h : op &&& 0xF0FF = value) : encodeX value (fieldX op) = op := by
  apply BitVec.eq_of_toNat_eq
  rw [← h, and_F0FF_of_class rfl rfl, encodeX_toNat _ _ (by omega) (by omega), fieldX_val]
  omega

end Fields

/-- The opcodes a row selects are the encodings of what it builds (R66, R71). -/
def Row.Reencodes (r : Row) : Prop := ∀ op : Word, op &&& r.mask = r.value → encode (r.build op) = op

theorem rowsLow_reencode : ∀ r ∈ rowsLow, r.Reencodes := by
  have hFixed {op value : Word} (h : op &&& 0xFFFF = value) : value = op := h.symm.trans BitVec.and_allOnes
  simp only [rowsLow, List.forall_mem_cons]
  exact ⟨fun _ => hFixed, fun _ => hFixed, fun _ => encodeA_fields, fun _ => encodeA_fields, fun _ => encodeXI_fields,
    fun _ => encodeXI_fields, fun _ => encodeXY_fields, fun _ => encodeXI_fields, fun _ => encodeXI_fields, by simp⟩

theorem rowsAlu_reencode : ∀ r ∈ rowsAlu, r.Reencodes := by
  simp only [rowsAlu, List.forall_mem_cons]
  refine ⟨?_, ?_, ?_, ?_, ?_, ?_, ?_, ?_, ?_, by simp⟩ <;> exact fun _ => encodeXY_fields

theorem rowsMid_reencode : ∀ r ∈ rowsMid, r.Reencodes := by
  simp only [rowsMid, List.forall_mem_cons]
  exact ⟨fun _ => encodeXY_fields, fun _ => encodeA_fields, fun _ => encodeA_fields, fun _ => encodeXI_fields,
    fun _ => encodeXYN_fields, by simp⟩

theorem rowsHigh_reencode : ∀ r ∈ rowsHigh, r.Reencodes := by
  simp only [rowsHigh, List.forall_mem_cons]
  refine ⟨?_, ?_, ?_, ?_, ?_, ?_, ?_, ?_, ?_, ?_, ?_, by simp⟩ <;> exact fun _ => encodeX_fields

theorem opcodeMap_reencode : ∀ r ∈ opcodeMap, r.Reencodes := by
  simp only [opcodeMap, List.forall_mem_append]
  exact ⟨⟨⟨rowsLow_reencode, rowsAlu_reencode⟩, rowsMid_reencode⟩, rowsHigh_reencode⟩

/-! ### What each operation class rejects (R69) -/

/-- The rows of an operation class `op[15:12]`. -/
def classRows (c : Nat) : List Row := opcodeMap.filter (·.value.toNat / 4096 = c)

theorem mem_classRows {c : Nat} {r : Row} : r ∈ classRows c ↔ r ∈ opcodeMap ∧ r.value.toNat / 4096 = c := by
  simp [classRows]

/-- A row's match has no bit outside its mask. -/
theorem value_masked {r : Row} (hr : r ∈ opcodeMap) : r.value &&& r.mask = r.value :=
  (by decide : ∀ r ∈ opcodeMap, r.value &&& r.mask = r.value) r hr

/-- A row selects opcodes of its own class only: every mask covers the high nibble. -/
theorem class_of_selected {r : Row} (hr : r ∈ opcodeMap) {op : Word} (h : op &&& r.mask = r.value) :
    op.toNat / 4096 = r.value.toNat / 4096 := by
  have hmask : r.mask &&& 0xF000 = 0xF000 := (by decide : ∀ r ∈ opcodeMap, r.mask &&& 0xF000 = 0xF000) r hr
  have hclass : r.value &&& 0xF000 = op &&& 0xF000 := by rw [← h, BitVec.and_assoc, hmask]
  have := congrArg BitVec.toNat hclass
  rw [and_F000, and_F000] at this
  omega

/-- An opcode does not decode iff no row of its class selects it. -/
theorem decodeOp_none_of_class {op : Word} {c : Nat} (hc : op.toNat / 4096 = c) :
    decodeOp op = none ↔ ∀ r ∈ classRows c, op &&& r.mask ≠ r.value := by
  rw [decodeOp_none]
  constructor
  · exact fun h r hr => h r (mem_classRows.mp hr).1
  · intro h r hr hsel
    exact h r (mem_classRows.mpr ⟨hr, (class_of_selected hr hsel).symm.trans hc⟩) hsel

section Classes

variable {op : Word} {c : Nat}

/-- Where the rows of a class share a mask of the high nibble and of the low bits (the residue modulo `m`), they select exactly
the opcodes that have the low bits of one of them. -/
theorem decodeOp_none_of_lowBits {mask : Word} {m : Nat}
    (hand : ∀ w : Word, (w &&& mask).toNat = w.toNat / 4096 * 4096 + w.toNat % m)
    (hc : op.toNat / 4096 = c) (hmask : ∀ r ∈ classRows c, r.mask = mask) :
    decodeOp op = none ↔ op.toNat % m ∉ (classRows c).map (·.value.toNat % m) := by
  have hsel : ∀ r ∈ classRows c, op &&& r.mask = r.value ↔ r.value.toNat % m = op.toNat % m := by
    intro r hr
    obtain ⟨hmap, hclass⟩ := mem_classRows.mp hr
    have hvalue := congrArg BitVec.toNat (value_masked hmap)
    rw [hmask r hr, hand] at hvalue
    rw [hmask r hr, ← BitVec.toNat_inj, hand]
    omega
  simp only [decodeOp_none_of_class hc, List.mem_map, not_exists, not_and]
  exact forall₂_congr fun r hr => not_congr (hsel r hr)

theorem decodeOp_none_zero (hc : op.toNat / 4096 = 0) : decodeOp op = none ↔ Opcode.legalZero op = false := by
  have hrows : classRows 0 = rowsLow.take 2 := rfl
  have hmask : op &&& 0xFFFF = op := BitVec.and_allOnes
  rw [decodeOp_none_of_class hc, hrows]
  simp only [rowsLow, List.take_succ_cons, List.take_zero, List.forall_mem_cons, hmask]
  simp [Opcode.legalZero, BitVec.toNat_eq]

theorem decodeOp_none_skipReg (hc : op.toNat / 4096 = 5 ∨ op.toNat / 4096 = 9) :
    decodeOp op = none ↔ Opcode.legalSkipReg op = false := by
  have hrows : decodeOp op = none ↔ op.toNat % 16 ∉ [0] := by
    rcases hc with hc | hc <;> exact decodeOp_none_of_lowBits and_F00F hc (by decide)
  simp [hrows, Opcode.legalSkipReg]

theorem decodeOp_none_alu (hc : op.toNat / 4096 = 8) : decodeOp op = none ↔ Opcode.legalAlu op = false := by
  have hrows : decodeOp op = none ↔ op.toNat % 16 ∉ [0x0, 0x1, 0x2, 0x3, 0x4, 0x5, 0x6, 0x7, 0xE] :=
    decodeOp_none_of_lowBits and_F00F hc (by decide)
  simp only [hrows, Opcode.legalAlu, Bool.not_eq_false', List.contains_iff_mem, List.mem_cons, List.not_mem_nil,
    or_false]
  omega

theorem decodeOp_none_key (hc : op.toNat / 4096 = 14) : decodeOp op = none ↔ Opcode.legalKey op = false := by
  have hrows : decodeOp op = none ↔ op.toNat % 256 ∉ [0x9E, 0xA1] := decodeOp_none_of_lowBits and_F0FF hc (by decide)
  rw [hrows, Opcode.legalKey, ← List.contains_iff_mem, Bool.not_eq_true]

theorem decodeOp_none_misc (hc : op.toNat / 4096 = 15) : decodeOp op = none ↔ Opcode.legalMisc op = false := by
  have hrows : decodeOp op = none ↔ op.toNat % 256 ∉ [0x07, 0x0A, 0x15, 0x18, 0x1E, 0x29, 0x33, 0x55, 0x65] :=
    decodeOp_none_of_lowBits and_F0FF hc (by decide)
  rw [hrows, Opcode.legalMisc, ← List.contains_iff_mem, Bool.not_eq_true]

/-- In the classes outside the table of R69 one row, with the class mask, selects every opcode. -/
theorem decodeOp_ne_none_of_full_class (hc : op.toNat / 4096 ∉ [0x0, 0x5, 0x8, 0x9, 0xE, 0xF]) : decodeOp op ≠ none := by
  have hrow : ∀ c ∈ List.range 16, c ∉ [0x0, 0x5, 0x8, 0x9, 0xE, 0xF] →
      ∃ r ∈ opcodeMap, r.mask = 0xF000 ∧ r.value = BitVec.ofNat 16 (c * 4096) := by decide
  have hlt : op.toNat / 4096 < 16 := by omega
  obtain ⟨r, hr, hmask, hvalue⟩ := hrow _ (List.mem_range.mpr hlt) hc
  rw [decodeOp_of_row hr (by rw [hmask, hvalue, and_F000_of_class rfl])]
  exact Option.some_ne_none _

end Classes

/-! ### The statements settled -/

/-- Settles O1: the two bytes put together again are the encoded opcode, and the decoder undoes the encoder. -/
theorem decodeOfEncodeIsTheInstr : Obligations.DecodeOfEncodeIsTheInstr := by
  intro i rest
  exact decode_wordBytes_append (decodeOp_encode i) rest

/-- Settles O2: what decodes was selected by a row of the map, and every row's selected opcodes are encodings. -/
theorem encodeOfDecodeIsTheOpcode : Obligations.EncodeOfDecodeIsTheOpcode := by
  intro op i h
  obtain ⟨r, hr, hsel, rfl⟩ := row_of_decodeOp h
  exact opcodeMap_reencode r hr op hsel

/-- Settles O3: two rows that differ in a bit both masks cover select no opcode together. -/
theorem opcodeMapRowsNeverOverlap : Obligations.OpcodeMapRowsNeverOverlap := by
  refine ⟨rfl, opcodeMap_apart.imp ?_⟩
  rintro r q hapart op ⟨hr, hq⟩
  exact absurd hq (by simp [Row.not_both hapart op hr])

/-- Settles O4: class by class, the rows of the class select what R69 leaves legal in it. -/
theorem decodeRejectsExactlyTheIllegalOpcodes : Obligations.DecodeRejectsExactlyTheIllegalOpcodes := by
  intro op
  unfold Opcode.legal
  split
  next hc => exact decodeOp_none_zero hc
  next hc => exact decodeOp_none_skipReg (.inl hc)
  next hc => exact decodeOp_none_alu hc
  next hc => exact decodeOp_none_skipReg (.inr hc)
  next hc => exact decodeOp_none_key hc
  next hc => exact decodeOp_none_misc hc
  next h0 h5 h8 h9 hE hF =>
    have hc : op.toNat / 4096 ∉ [0x0, 0x5, 0x8, 0x9, 0xE, 0xF] := by
      simp only [List.mem_cons, List.not_mem_nil, or_false, not_or]
      exact ⟨h0, h5, h8, h9, hE, hF⟩
    simp [decodeOp_ne_none_of_full_class hc]

/-- Settles O5: each pair of bytes is what the encoder writes for its instruction, so O1's round trip reads it back. -/
theorem workedExampleBytesDecode : Obligations.WorkedExampleBytesDecode := by
  have h (i : Instr) : decode (encodeBytes i) = .ok i := decodeOfEncodeIsTheInstr i []
  exact ⟨h .cls, h (.seReg 0 1), h (.seImm 0 0x14), h (.sneReg 0 1), h (.sneImm 0 0x14), h (.jmp 0x200), h (.call 0x208),
    h (.ldReg 0 1), h (.shr 0xA 0xB), h (.drw 0xA 0xB 12), h (.rnd 0 0x0F), h (.ldi 0x300), h (.load 0xE), h (.setst 0)⟩

end Sys2Proof

/-! ## The cycle: fetch, decode, execute and the epilogue; the draw (spec 40_cycle.md) -/

namespace Sys2Proof.Machine

/-! ### The epilogue's timers as numbers, and where they stand at 0 (R85 to R87) -/

theorem byte_pos_iff (b : Byte) : 0 < b.toNat ↔ b ≠ 0 := b.toNat_pos.trans b.pos_iff_ne_zero

/-- A byte above 0 counts down without a wrap. -/
theorem byte_sub_one_toNat {b : Byte} (h : 0 < b.toNat) : (b - 1).toNat = b.toNat - 1 :=
  BitVec.toNat_sub_of_le (BitVec.le_def.mpr h)

/-- Under `per_cycle` the delay timer falls by 1, not below 0 (R85, decision D13). -/
theorem epilogue_dt_perCycle {s : State} (op : Word) (h : s.params.dtCountdown = .perCycle) :
    (epilogue op s).dt.toNat = s.dt.toNat - 1 := by
  rw [epilogue_dt]
  split
  next hdt => exact byte_sub_one_toNat hdt.2
  next hdt =>
    have hzero : ¬ 0 < s.dt.toNat := fun hpos => hdt ⟨h, hpos⟩
    omega

/-- Under `off` the delay timer stands still (R85, decision D13). -/
theorem epilogue_dt_off {s : State} (op : Word) (h : s.params.dtCountdown = .off) : (epilogue op s).dt = s.dt := by
  simp [epilogue_dt, h]

/-- A sound timer above 0 falls by 1 and the cycle reports `Audio` (R86, R87). -/
theorem epilogue_of_st_pos {s : State} (op : Word) (h : 0 < s.st.toNat) :
    (epilogue op s).st = s.st - 1 ∧ (epilogue op s).event = some .audio := by
  rw [epilogue_st, epilogue_event, if_pos h, if_pos h]
  exact ⟨rfl, rfl⟩

/-- A sound timer at 0 stays there and the cycle reports the opcode that ran (R86, R87). -/
theorem epilogue_of_st_zero {s : State} (op : Word) (h : s.st = 0) :
    (epilogue op s).st = 0 ∧ (epilogue op s).event = some (.executed op) := by
  simp [epilogue_st, epilogue_event, h]

/-! ### Outcomes of a cycle -/

theorem nextInstr_of_fetch {s : State} {op : Word} {i : Instr} (hf : fetch s = .ok op) (hd : decodeOp op = some i) :
    nextInstr s = some i := by
  simp only [nextInstr, hf, hd]

theorem decodeOp_of_decode {hi lo : Byte} {rest : List Byte} {i : Instr} (h : decode (hi :: lo :: rest) = .ok i) :
    decodeOp (opcodeOf hi lo) = some i := by
  simp only [decode] at h
  split at h
  next j hd => cases h; exact hd
  next => cases h

theorem indexed_not_refused {s t : State} {len : Nat} {r : Refusal} : s.indexed len (.next t) ≠ .refused r := by
  unfold State.indexed
  split <;> nofun

/-- Every instruction has a meaning: `exec` refuses none of the 34 (R66, R88). -/
theorem exec_not_refused (i : Instr) (s : State) (r : Refusal) : exec i s ≠ .refused r := by
  cases i with
  | ret =>
    change execRet s ≠ _
    unfold execRet
    split <;> nofun
  | call nnn =>
    change execCall nnn s ≠ _
    unfold execCall
    split <;> nofun
  | drw | bcd | dump | load => exact indexed_not_refused
  | _ => nofun

/-- The cycle is total: it completes or it faults (R88). -/
theorem step_next_or_fault (s : State) : (∃ t, step s = .next t) ∨ ∃ f, step s = .fault f := by
  unfold step
  split
  next f _ => exact .inr ⟨f, rfl⟩
  next op _ =>
    split
    next => exact .inr ⟨_, rfl⟩
    next i _ =>
      split
      next t _ => exact .inl ⟨_, rfl⟩
      next f _ => exact .inr ⟨f, rfl⟩
      next r he => exact absurd he (exec_not_refused i s r)

/-- A completed cycle reports an event (R87). -/
theorem event_of_step_next {s u : State} (h : step s = .next u) : ∃ e, u.event = some e := by
  obtain ⟨op, i, t, -, -, -, rfl⟩ := step_next h
  exact ⟨_, epilogue_event t op⟩

/-! ### Another draw counter

That an operation does not read the counter is that it commutes with setting it. -/

/-- The state with another draw counter (log entry 3). -/
def State.withDraws (s : State) (d : Nat) : State := { s with draws := d }

/-- An outcome with its next state, where it has one, changed by `f`. -/
def mapNext (f : State → State) : Host.Outcome State Fault Refusal → Host.Outcome State Fault Refusal
  | .next t => .next (f t)
  | .fault e => .fault e
  | .refused r => .refused r

section

variable (s : State) (d : Nat)

theorem pop_withDraws : (s.withDraws d).pop = s.pop.map (fun p => (p.1, p.2.withDraws d)) := by
  unfold State.pop
  rw [apply_dite (Option.map _)]
  rfl

theorem push_withDraws (w : Word) : (s.withDraws d).push w = (s.push w).map (·.withDraws d) := by
  unfold State.push
  rw [apply_dite (Option.map _)]
  rfl

theorem indexed_withDraws {len : Nat} {t u : State} (hu : u = t.withDraws d) :
    (s.withDraws d).indexed len (.next u) = mapNext (·.withDraws d) (s.indexed len (.next t)) := by
  subst hu
  unfold State.indexed
  rw [apply_ite (mapNext _)]
  rfl

theorem storeBytes_withDraws (a : Nat) (bs : List Byte) :
    State.storeBytes a bs (s.withDraws d) = (State.storeBytes a bs s).withDraws d := by
  induction bs generalizing a s with
  | nil => rfl
  | cons b bs ih => exact ih (s.setByte a b) (a + 1)

theorem setRegs_withDraws (k : Nat) (bs : List Byte) :
    State.setRegs k bs (s.withDraws d) = (State.setRegs k bs s).withDraws d := by
  induction bs generalizing k s with
  | nil => rfl
  | cons b bs ih => exact ih { s with v := s.v.setIfInBounds k b } (k + 1)

/-- Only Cxnn reads the draw (R88, R111). -/
theorem exec_withDraws {i : Instr} (hi : ∀ x nn, i ≠ .rnd x nn) :
    exec i (s.withDraws d) = mapNext (·.withDraws d) (exec i s) := by
  cases i with
  | rnd x nn => exact absurd rfl (hi x nn)
  | ret =>
    change execRet (s.withDraws d) = mapNext _ (execRet s)
    unfold execRet
    rw [pop_withDraws]
    cases s.pop <;> rfl
  | call nnn =>
    change execCall nnn (s.withDraws d) = mapNext _ (execCall nnn s)
    unfold execCall
    rw [show (s.withDraws d).pc = s.pc from rfl, push_withDraws]
    cases s.push (s.pc + 2) <;> rfl
  | drw => exact indexed_withDraws s d rfl
  | bcd | dump => exact indexed_withDraws s d (congrArg (·.advance 2) (storeBytes_withDraws s d _ _))
  | load => exact indexed_withDraws s d (congrArg (·.advance 2) (setRegs_withDraws s d _ _))
  | _ => rfl

theorem epilogue_withDraws (op : Word) : epilogue op (s.withDraws d) = (epilogue op s).withDraws (d + 1) := by
  have hdelay : (s.withDraws d).delayStep = s.delayStep.withDraws d := by
    unfold State.delayStep
    rw [apply_ite (State.withDraws · d)]
    rfl
  have hsound (t : State) : (t.withDraws d).soundStep op = (t.soundStep op).withDraws d := by
    unfold State.soundStep
    rw [apply_ite (State.withDraws · d)]
    rfl
  unfold epilogue
  rw [hdelay, hsound]
  rfl

/-- Where the next instruction is not Cxnn, another draw counter changes nothing in the cycle but that counter (R88). -/
theorem step_withDraws (hi : ∀ x nn, nextInstr s ≠ some (.rnd x nn)) :
    step (s.withDraws d) = mapNext (·.withDraws (d + 1)) (step s) := by
  have hfetch : fetch (s.withDraws d) = fetch s := rfl
  cases hf : fetch s with
  | error f => simp only [step, hfetch, hf, mapNext]
  | ok op =>
    cases hd : decodeOp op with
    | none => simp only [step, hfetch, hf, hd, mapNext]; rfl
    | some i =>
      have hrnd : ∀ x nn, i ≠ .rnd x nn := fun x nn e => hi x nn (e ▸ nextInstr_of_fetch hf hd)
      rw [step_of_exec (hfetch.trans hf) hd, step_of_exec hf hd, exec_withDraws s d hrnd]
      cases exec i s with
      | next t => exact congrArg Host.Outcome.next (epilogue_withDraws t d op)
      | fault f => rfl
      | refused r => rfl

end

/-! ### The statements settled -/

/-- Settles O11: execute leaves the parameter as it was, and the epilogue's delay step follows it. -/
theorem delayTimerStepObeysTheParameter : Obligations.DelayTimerStepObeysTheParameter := by
  intro s u h
  obtain ⟨op, i, t, hf, hd, he, rfl⟩ := step_next h
  have hparams : t.params = s.params := (exec_effect he).params
  rw [← hparams]
  exact ⟨i, t, nextInstr_of_fetch hf hd, he, epilogue_dt_perCycle op, epilogue_dt_off op⟩

/-- Settles O13: no instruction is refused, the epilogue reports an event, and all but Cxnn commute with setting the counter. -/
theorem stepIsTotalAndOnlyRndReadsTheDraw : Obligations.StepIsTotalAndOnlyRndReadsTheDraw := by
  constructor
  · intro s
    refine (step_next_or_fault s).imp_left ?_
    rintro ⟨t, h⟩
    obtain ⟨e, hevent⟩ := event_of_step_next h
    exact ⟨t, e, h, hevent⟩
  · intro s d hi
    have hstep : step { s with draws := d } = mapNext (·.withDraws (d + 1)) (step s) := step_withDraws s d hi
    constructor
    · intro t h
      rw [hstep, h]
      rfl
    · intro f h
      rw [hstep, h]
      rfl

/-- Settles O6: the two bytes are what fetch reads, so the cycle is `exec` of their instruction, then the epilogue. -/
theorem stepRunsTheDecodedInstr : Obligations.StepRunsTheDecodedInstr := by
  intro s i hpc hdecode
  have hstep := step_of_exec (fetch_ok hpc) (decodeOp_of_decode hdecode)
  constructor
  · intro t he
    rw [he] at hstep
    refine ⟨_, hstep, fun r _ => epilogue_reg t _ r, epilogue_i t _, epilogue_pc t _,
      ⟨epilogue_sp t _, epilogue_slot t _⟩, epilogue_byteAt t _, epilogue_cell t _, epilogue_params t _,
      epilogue_draws t _, ?_, ?_⟩
    · simp only [epilogue_dt, byte_pos_iff]
    · by_cases hst : t.st = 0
      · rw [if_pos hst, if_pos hst]
        exact epilogue_of_st_zero _ hst
      · rw [if_neg hst, if_neg hst]
        exact epilogue_of_st_pos _ ((byte_pos_iff _).mpr hst)
  · intro f he
    rw [hstep, he]

/-- Settles O10: the sound step reads the `ST` that execute left, above 0 or at 0. -/
theorem soundTimerStepFollowsExecute : Obligations.SoundTimerStepFollowsExecute := by
  intro s u h
  obtain ⟨op, i, t, hf, hd, he, rfl⟩ := step_next h
  refine ⟨op, i, t, hf, hd, he, ?_⟩
  by_cases hst : t.st = 0
  · exact .inr ⟨hst, epilogue_of_st_zero op hst⟩
  · have hpos : 0 < t.st.toNat := (byte_pos_iff _).mpr hst
    obtain ⟨hfall, hevent⟩ := epilogue_of_st_pos op hpos
    refine .inl ⟨hpos, ?_, hevent⟩
    rw [hfall, byte_sub_one_toNat hpos]
    omega

end Sys2Proof.Machine

/-! ## Control flow: return, jumps, call and skips (spec 41_control_flow.md) -/

namespace Sys2Proof.Machine

section

variable {s t : State}

/-! ### The stack instructions: when they complete, and what they leave unchanged -/

theorem execRet_completes (h : 0 < s.sp.val) : ∃ t, execRet s = .next t := by
  unfold execRet
  cases hpop : s.pop with
  | none => exact absurd (pop_none.mp hpop) (by omega)
  | some p => exact ⟨_, rfl⟩

theorem execCall_completes (nnn : BitVec 12) (h : s.sp.val < 16) : ∃ t, execCall nnn s = .next t := by
  unfold execCall
  cases hpush : s.push (s.pc + 2) with
  | none => exact absurd (push_none.mp hpush) (by omega)
  | some u => exact ⟨_, rfl⟩

/-- The frame of the two instructions that move the stack: but for the stack and `PC`, nothing changes (R90, R92). -/
def OnlyStackChanges (s t : State) : Prop :=
  SameRegsExcept [] s t ∧ t.i = s.i ∧ SameTimers s t ∧ SameMem s t ∧ SameFb s t ∧ SameModel s t

theorem Effect.onlyStack {i : Instr} (e : Effect i s t) (hi : i = .ret ∨ ∃ nnn, i = .call nnn) :
    OnlyStackChanges s t := by
  rcases hi with rfl | ⟨nnn, rfl⟩ <;>
    exact ⟨e.regs, e.index nofun nofun nofun, ⟨e.dt nofun, e.st nofun⟩, e.sameMem nofun nofun,
      fun r c => by simp only [State.cell, e.fb nofun nofun], e.params, e.draws, e.event⟩

/-- A completed return, by the number of the slot it pops (R90). -/
theorem execRet_pops {k : Fin 16} (hk : s.sp.val = k.val + 1) (h : execRet s = .next t) :
    t.pc = s.slot k ∧ t.sp.val = k.val := by
  obtain ⟨hs, rfl⟩ := execRet_next h
  have htop : (⟨s.sp.val - 1, by omega⟩ : Fin 16) = k := Fin.ext (by simp [hk])
  exact ⟨congrArg s.slot htop, congrArg Fin.val htop⟩

/-- Where a completed call leaves `PC` and `SP`; what it leaves in the slots is `slot_execCall` (R92). -/
theorem execCall_jumps {nnn : BitVec 12} (h : execCall nnn s = .next t) :
    t.sp.val = s.sp.val + 1 ∧ t.pc.toNat = nnn.toNat := by
  obtain ⟨_, rfl⟩ := execCall_next h
  exact ⟨rfl, immAddr_toNat nnn⟩

/-! ### Where the skips and jmp0 lead -/

theorem skipIf_beq (s : State) (a b : Byte) :
    (s.skipIf (a == b)).pc = s.pc + (if a.toNat = b.toNat then 4 else 2) ∧ OnlyRegsChange [] s (s.skipIf (a == b)) :=
  ⟨by simp [skipIf_pc, BitVec.toNat_inj], onlyRegs_advance s _⟩

theorem skipIf_bne (s : State) (a b : Byte) :
    (s.skipIf (a != b)).pc = s.pc + (if a.toNat = b.toNat then 2 else 4) ∧ OnlyRegsChange [] s (s.skipIf (a != b)) :=
  ⟨by simp [skipIf_pc, BitVec.toNat_inj], onlyRegs_advance s _⟩

/-- A 12-bit address plus a register stays in 16 bits, so the sum is exact (R97). -/
theorem immAddr_add_wideReg_toNat (nnn : BitVec 12) (s : State) (x : Reg) :
    (immAddr nnn + s.wideReg x).toNat = nnn.toNat + (s.reg x).toNat := by
  rw [BitVec.toNat_add, immAddr_toNat, wideReg_toNat]
  omega

end

/-! ### The statements settled -/

/-- Settles O20: with a call outstanding a return completes, pops the slot below `SP`, and writes no slot. -/
theorem retResumesAtThePoppedAddress : Obligations.RetResumesAtThePoppedAddress := by
  refine ⟨selected_at (k := 1) rfl, fun s k hk => ?_⟩
  obtain ⟨t, h⟩ := execRet_completes (s := s) (by omega)
  obtain ⟨hpc, hsp⟩ := execRet_pops hk h
  have e := effect_execRet h
  exact ⟨t, h, hpc, hsp, fun j => by simp only [State.slot, e.stack nofun], e.onlyStack (.inl rfl)⟩

/-- Settles O22: a jump only sets `PC`, to the widened address. -/
theorem jmpSetsPcToTheAddress : Obligations.JmpSetsPcToTheAddress :=
  ⟨selected_at (k := 2) rfl, fun nnn s => ⟨_, rfl, immAddr_toNat nnn, onlyRegs_setPc s _⟩⟩

/-- Settles O23: with a free slot a call completes, writes the slot `SP` counts to and no other, and jumps. -/
theorem callPushesTheNextAddressAndJumps : Obligations.CallPushesTheNextAddressAndJumps := by
  refine ⟨selected_at (k := 3) rfl, fun nnn s k hk => ?_⟩
  obtain ⟨t, h⟩ := execCall_completes (s := s) nnn (by omega)
  obtain ⟨hsp, hpc⟩ := execCall_jumps h
  have hslot := slot_execCall h
  have hframe := (effect_execCall h).onlyStack (.inr ⟨nnn, rfl⟩)
  refine ⟨t, h, ?_, by rw [hsp, hk], hpc, fun j hj => ?_, hframe⟩
  · rw [hslot, if_pos hk.symm]
  · rw [hslot, if_neg (by omega)]

/-- Settles O25: both skips only advance `PC`, on opposite outcomes of one comparison. -/
theorem immediateSkipsAdvanceByFourOrTwo : Obligations.ImmediateSkipsAdvanceByFourOrTwo :=
  ⟨selected_at (k := 4) rfl, selected_at (k := 5) rfl, fun _ _ s =>
    ⟨⟨_, rfl, skipIf_beq s _ _⟩, ⟨_, rfl, skipIf_bne s _ _⟩⟩⟩

/-- Settles O26: as the immediate skips; in classes 5 and 9 only the low nibble 0 is legal. -/
theorem registerSkipsAdvanceByFourOrTwo : Obligations.RegisterSkipsAdvanceByFourOrTwo := by
  refine ⟨selected_at (k := 6) rfl, selected_at (k := 18) rfl, fun _ hc hn => ?_, fun _ _ s =>
    ⟨⟨_, rfl, skipIf_beq s _ _⟩, ⟨_, rfl, skipIf_bne s _ _⟩⟩⟩
  exact (decodeOp_none_skipReg hc).mpr (by simp [Opcode.legalSkipReg, hn])

/-- Settles O27: jmp0 only sets `PC`, to a sum that does not wrap. -/
theorem offsetJumpAddsRegisterZeroUnmasked : Obligations.OffsetJumpAddsRegisterZeroUnmasked :=
  ⟨selected_at (k := 20) rfl, fun nnn s => ⟨_, rfl, immAddr_add_wideReg_toNat nnn s 0, onlyRegs_setPc s _⟩⟩

end Sys2Proof.Machine

/-! ## Registers and ALU (spec 42_register_alu.md) -/

namespace Sys2Proof.Machine

/-! ### The flags as numbers (R23, R106 to R110) -/

theorem carryFlag_toNat (a b : Byte) : (carryFlag a b).toNat = if 255 < a.toNat + b.toNat then 1 else 0 := by
  simp [carryFlag, flagByte_toNat]

theorem borrowFlag_toNat (a b : Byte) : (borrowFlag a b).toNat = if a.toNat < b.toNat then 1 else 0 := by
  simp [borrowFlag, flagByte_toNat]

theorem lowBitFlag_toNat (a : Byte) : (lowBitFlag a).toNat = a.toNat % 2 := by
  simp only [lowBitFlag, flagByte_toNat, BitVec.getLsbD, Nat.testBit_zero, decide_eq_true_eq]
  split <;> omega

theorem highBitFlag_toNat (a : Byte) : (highBitFlag a).toNat = a.toNat / 128 := by
  have := a.isLt
  simp only [highBitFlag, flagByte_toNat, BitVec.getLsbD, Nat.testBit_eq_decide_div_mod_eq, decide_eq_true_eq]
  split <;> omega

/-! ### The results as numbers (R107 to R110, R112) -/

theorem byte_sub_toNat (a b : Byte) : (a - b).toNat = (a.toNat + 256 - b.toNat) % 256 := by
  have := b.isLt
  rw [BitVec.toNat_sub]
  omega

theorem byte_half_toNat (a : Byte) : (a >>> 1).toNat = a.toNat / 2 := by
  rw [BitVec.toNat_ushiftRight, Nat.shiftRight_one]

theorem byte_double_toNat (a : Byte) : (a <<< 1).toNat = a.toNat * 2 % 256 := by
  rw [BitVec.toNat_shiftLeft, Nat.shiftLeft_eq, pow_one]

/-! ### The two shared endings complete in every state

Each is said in the form the statements read the result in: as a byte, as a number, or bit by bit. -/

section

variable (s : State) (x : Reg)

theorem finish_completes (b : Byte) :
    ∃ t, s.finish x b = .next t ∧ t.reg x = b ∧ t.pc = s.pc + 2 ∧ OnlyRegsChange [x] s t :=
  ⟨_, rfl, onlyRegs_finish rfl⟩

theorem finish_number {b : Byte} {m : Nat} (hb : b.toNat = m) :
    ∃ t, s.finish x b = .next t ∧ (t.reg x).toNat = m ∧ t.pc = s.pc + 2 ∧ OnlyRegsChange [x] s t := by
  obtain ⟨t, h, rfl, hrest⟩ := finish_completes s x b
  exact ⟨t, h, hb, hrest⟩

theorem finish_bits {b : Byte} {bit : Nat → Bool} (hb : ∀ k < 8, b.getLsbD k = bit k) :
    ∃ t, s.finish x b = .next t ∧ (∀ k < 8, (t.reg x).getLsbD k = bit k) ∧
      t.pc = s.pc + 2 ∧ OnlyRegsChange [x] s t := by
  obtain ⟨t, h, rfl, hrest⟩ := finish_completes s x b
  exact ⟨t, h, hb, hrest⟩

/-- With `x = 15` only the flag is left to read (R24, decision D6). -/
theorem finishFlag_numbers {b f : Byte} {m n : Nat} (hb : b.toNat = m) (hf : f.toNat = n) :
    ∃ t, s.finishFlag x b f = .next t ∧ (x ≠ VF → (t.reg x).toNat = m) ∧ (t.reg VF).toNat = n ∧
      t.pc = s.pc + 2 ∧ OnlyRegsChange [x, VF] s t := by
  obtain ⟨hresult, hflag, hrest⟩ := onlyRegs_finishFlag (s := s) (x := x) (b := b) (f := f) rfl
  exact ⟨_, rfl, fun hx => (congrArg BitVec.toNat (hresult hx)).trans hb, (congrArg BitVec.toNat hflag).trans hf, hrest⟩

end

/-! ### The statements settled -/

/-- Settles O28: ld_imm ends by writing `nn` itself. -/
theorem ldImmWritesTheByte : Obligations.LdImmWritesTheByte :=
  ⟨selected_at (k := 7) rfl, fun x nn s => finish_completes s x nn⟩

/-- Settles O29: byte addition wraps modulo 256, and the ending writes no flag. -/
theorem addImmWrapsWithoutFlag : Obligations.AddImmWrapsWithoutFlag :=
  ⟨selected_at (k := 8) rfl, fun x nn s => finish_number s x (BitVec.toNat_add (s.reg x) nn)⟩

/-- Settles O30: ld_reg ends by writing the byte read from `V[y]`. -/
theorem ldRegCopiesTheRegister : Obligations.LdRegCopiesTheRegister :=
  ⟨selected_at (k := 9) rfl, fun x y s => finish_completes s x (s.reg y)⟩

/-- Settles O31: the three operations on bytes act on each bit alone, and the ending writes no flag. -/
theorem logicInstrsWorkBitByBitWithoutFlag : Obligations.LogicInstrsWorkBitByBitWithoutFlag :=
  ⟨selected_at (k := 10) rfl, selected_at (k := 11) rfl, selected_at (k := 12) rfl, fun x _ s =>
    ⟨finish_bits s x fun _ _ => BitVec.getLsbD_or, finish_bits s x fun _ _ => BitVec.getLsbD_and,
      finish_bits s x fun _ _ => BitVec.getLsbD_xor⟩⟩

/-- Settles O32: the sum wraps modulo 256, and the flag written after it is the carry. -/
theorem addRegWritesSumThenCarry : Obligations.AddRegWritesSumThenCarry :=
  ⟨selected_at (k := 13) rfl, fun x y s =>
    finishFlag_numbers s x (BitVec.toNat_add (s.reg x) (s.reg y)) (carryFlag_toNat _ _)⟩

/-- Settles O33: the difference wraps modulo 256, and the flag written after it is the borrow. -/
theorem subWritesDifferenceThenBorrow : Obligations.SubWritesDifferenceThenBorrow :=
  ⟨selected_at (k := 14) rfl, fun x _ s => finishFlag_numbers s x (byte_sub_toNat _ _) (borrowFlag_toNat _ _)⟩

/-- Settles O34: as sub, with the operands in the other order and `V[x]` still the destination. -/
theorem subnWritesReverseDifferenceThenBorrow : Obligations.SubnWritesReverseDifferenceThenBorrow :=
  ⟨selected_at (k := 16) rfl, fun x _ s => finishFlag_numbers s x (byte_sub_toNat _ _) (borrowFlag_toNat _ _)⟩

/-- Settles O35: the shifts halve and double `V[x]`, whatever `y` is, and the flag is the bit that drops out. -/
theorem shiftsWriteResultThenBitShiftedOut : Obligations.ShiftsWriteResultThenBitShiftedOut :=
  ⟨selected_at (k := 15) rfl, selected_at (k := 17) rfl, fun x _ s =>
    ⟨finishFlag_numbers s x (byte_half_toNat _) (lowBitFlag_toNat _),
      finishFlag_numbers s x (byte_double_toNat _) (highBitFlag_toNat _)⟩⟩

/-- Settles O36: rnd ends by writing the conjunction of the draw and the mask, for any value of the draw. -/
theorem rndWritesTheMaskedDraw : Obligations.RndWritesTheMaskedDraw :=
  ⟨selected_at (k := 21) rfl, fun x _ s => finish_bits s x fun _ _ => BitVec.getLsbD_and⟩

end Sys2Proof.Machine

/-! ## Index register and memory instructions (spec 43_index_memory.md) -/

namespace Sys2Proof.Machine

section

variable {s t : State}

/-! ### The ending that sets `I` (R120 to R122) -/

/-- The shared ending completes in every state; its result is said as the number the statements read. -/
theorem finishIndex_number (s : State) {a : Word} {m : Nat} (ha : a.toNat = m) :
    ∃ t, s.finishIndex a = .next t ∧ t.i.toNat = m ∧ t.pc = s.pc + 2 ∧ OnlyIndexChanges s t := by
  obtain ⟨hi, hrest⟩ := onlyIndex_finishIndex (s := s) (a := a) rfl
  exact ⟨_, rfl, (congrArg BitVec.toNat hi).trans ha, hrest⟩

theorem add_wideReg_toNat (a : Word) (s : State) (x : Reg) :
    (a + s.wideReg x).toNat = (a.toNat + (s.reg x).toNat) % 65536 := by
  rw [BitVec.toNat_add, wideReg_toNat]

/-- Five times a byte stays in 16 bits, so the product is exact (R122, decision D10). -/
theorem wideReg_mul_five_toNat (s : State) (x : Reg) : (s.wideReg x * 5).toNat = (s.reg x).toNat * 5 := by
  have five : (5 : Word).toNat = 5 := rfl
  rw [BitVec.toNat_mul, wideReg_toNat, five]
  omega

/-! ### In bounds the memory instructions complete (R124) -/

theorem execBcd_completes (x : Reg) (h : s.i.toNat + 2 < 4096) : ∃ t, execBcd x s = .next t :=
  ⟨_, indexed_in (.inr h)⟩

theorem execDump_completes {x : Reg} (h : s.i.toNat + x.val < 4096) : ∃ t, execDump x s = .next t :=
  ⟨_, indexed_in (.inr h)⟩

theorem execLoad_completes {x : Reg} (h : s.i.toNat + x.val < 4096) : ∃ t, execLoad x s = .next t :=
  ⟨_, indexed_in (.inr h)⟩

/-! ### What an effect leaves unchanged, group by group -/

section

variable {i : Instr}

theorem Effect.sameStack (e : Effect i s t) (hc : ∀ nnn, i ≠ .call nnn) (hr : i ≠ .ret) : SameStack s t :=
  ⟨e.sp hc hr, fun k => by simp only [State.slot, e.stack hc]⟩

theorem Effect.sameTimers (e : Effect i s t) (hd : ∀ x, i ≠ .setdt x) (hs : ∀ x, i ≠ .setst x) : SameTimers s t :=
  ⟨e.dt hd, e.st hs⟩

theorem Effect.sameFb (e : Effect i s t) (hc : i ≠ .cls) (hd : ∀ x y n, i ≠ .drw x y n) : SameFb s t := fun r c => by
  simp only [State.cell, e.fb hc hd]

theorem Effect.sameModel (e : Effect i s t) : SameModel s t := ⟨e.params, e.draws, e.event⟩

end

/-! ### Stored bytes read at their own addresses, and memory elsewhere (R123, R125) -/

section

variable {len : Nat} {stored : Nat → Byte}

theorem overlaid_elem {k : Nat} (hk : k < len) : s.overlaid len stored (s.i.toNat + k) = stored k := by
  rw [State.overlaid, if_pos (by omega), Nat.add_sub_cancel_left]

/-- The frame of the two instructions that store, from their effect and from what memory reads as after them. -/
theorem Effect.onlyBytes {i : Instr} (e : Effect i s t) (hi : (∃ x, i = .bcd x) ∨ ∃ x, i = .dump x)
    (hmem : ∀ a, t.byteAt a = s.overlaid len stored a) : OnlyBytesChange (s.elemAddr 0) len s t := by
  have hbytes : SameMemExcept (s.elemAddr 0) len s t := fun a ha => (hmem a).trans (if_neg ha)
  rcases hi with ⟨x, rfl⟩ | ⟨x, rfl⟩ <;>
    exact ⟨e.regs, e.index nofun nofun nofun, e.sameStack nofun nofun, e.sameTimers nofun nofun, hbytes,
      e.sameFb nofun nofun, e.sameModel⟩

end

/-- Byte `k` from `I` on is decimal digit `k` of `V[x]`, the hundreds first (R123). -/
theorem execBcd_digit {x : Reg} (h : execBcd x s = .next t) {k : Nat} (hk : k < 3) :
    (t.byteAt (s.i.toNat + k)).toNat = (s.reg x).toNat / 10 ^ (2 - k) % 10 := by
  rw [byteAt_execBcd h, overlaid_elem hk, BitVec.toNat_ofNat]
  omega

/-- Byte `k` from `I` on is `V[k]` (R125). -/
theorem execDump_elem {x k : Reg} (h : execDump x s = .next t) (hk : k ≤ x) :
    t.byteAt (s.i.toNat + k.val) = s.reg k := by
  rw [byteAt_execDump h, overlaid_elem (Nat.lt_succ_of_le hk), Fin.ofNat_val_eq_self]

/-- `V[k]`, up to `V[x]`, is byte `k` from `I` on; that a load leaves the registers above is in its effect (R126). -/
theorem execLoad_elem {x k : Reg} (h : execLoad x s = .next t) (hk : k ≤ x) :
    t.reg k = s.byteAt (s.i.toNat + k.val) := by
  cases (indexed_next h).2
  have hlen := bytesAt_length s (s.elemAddr 0) (x.val + 1)
  have hkx : k.val < x.val + 1 := Nat.lt_succ_of_le hk
  rw [advance_reg, reg_setRegs _ _ _ (by omega), dif_pos (by omega), bytesAt_getElem, elemAddr_zero,
    Nat.sub_zero]

end

/-! ### The statements settled -/

/-- Settles O40: in bounds bcd completes, its three bytes are the digits (a byte has no more than three), and nothing else
is stored. -/
theorem bcdStoresTheThreeDigits : Obligations.BcdStoresTheThreeDigits := by
  refine ⟨selected_at (k := 31) rfl, fun x s hb => ?_⟩
  obtain ⟨t, h⟩ := execBcd_completes x hb
  have e := effect_execBcd h
  have hundreds : (t.byteAt s.i.toNat).toNat = (s.reg x).toNat / 100 % 10 := execBcd_digit h (k := 0) (by decide)
  have tens := execBcd_digit h (k := 1) (by decide)
  have units := execBcd_digit h (k := 2) (by decide)
  exact ⟨t, h, by omega, tens, by simpa using units, e.pc rfl, e.onlyBytes (.inl ⟨x, rfl⟩) (byteAt_execBcd h)⟩

/-- Settles O41: in bounds dump completes, and what memory reads as is the registers laid over it. -/
theorem dumpStoresTheRegistersInOrder : Obligations.DumpStoresTheRegistersInOrder := by
  refine ⟨selected_at (k := 32) rfl, fun x s hb => ?_⟩
  obtain ⟨t, h⟩ := execDump_completes hb
  have e := effect_execDump h
  exact ⟨t, h, fun _ => execDump_elem h, e.pc rfl, e.onlyBytes (.inr ⟨x, rfl⟩) (byteAt_execDump h)⟩

/-- Settles O42: in bounds load completes and fills the registers up to `V[x]`; it writes no memory. -/
theorem loadFillsTheRegistersInOrder : Obligations.LoadFillsTheRegistersInOrder := by
  refine ⟨selected_at (k := 33) rfl, fun x s hb => ?_⟩
  obtain ⟨t, h⟩ := execLoad_completes hb
  have e := effect_execLoad h
  have habove : ∀ k : Reg, x < k → t.reg k = s.reg k := fun k hk => e.regs k (by simpa [Instr.writtenRegs] using hk)
  exact ⟨t, h, fun _ => execLoad_elem h, habove, e.pc rfl, e.index nofun nofun nofun, e.sameStack nofun nofun,
    e.sameTimers nofun nofun, e.sameMem nofun nofun, e.sameFb nofun nofun, e.sameModel⟩

/-- Settles O37: ldi ends by setting `I` to the widened address. -/
theorem ldiSetsIndexToTheAddress : Obligations.LdiSetsIndexToTheAddress :=
  ⟨selected_at (k := 19) rfl, fun nnn s => finishIndex_number s (immAddr_toNat nnn)⟩

/-- Settles O38: addi ends by setting `I` to a 16-bit sum. -/
theorem addiAddsToIndexModulo65536 : Obligations.AddiAddsToIndexModulo65536 :=
  ⟨selected_at (k := 29) rfl, fun x s => finishIndex_number s (add_wideReg_toNat s.i s x)⟩

/-- Settles O39: font ends by setting `I` to a product that does not wrap. -/
theorem fontSetsIndexToFiveTimesTheRegister : Obligations.FontSetsIndexToFiveTimesTheRegister :=
  ⟨selected_at (k := 30) rfl, fun x s => finishIndex_number s (wideReg_mul_five_toNat s x)⟩

end Sys2Proof.Machine

/-! ## Display (spec 44_display.md) -/

namespace Sys2Proof.Machine

/-! ### The sprite of a draw (R131) -/

section

variable {x y : Reg} {n : BitVec 4} {s t : State}

/-- A cell hit by the sprite bytes a draw reads is one its sprite covers. -/
theorem spriteHit_bytesAt (r : Fin 32) (c : Fin 64) :
    spriteHit (s.reg x).toNat (s.reg y).toNat (s.bytesAt (s.elemAddr 0) n.toNat) r c ↔ SpriteCovers x y n s r c := by
  simp only [spriteHit, SpriteCovers, bytesAt_length, bytesAt_getElem, elemAddr_zero]
  exact exists₂_congr fun row col => exists_prop

/-- What the drawing of a draw is: the covered cells flipped, each once, the others as they were, and whether a covered
cell was 1. -/
theorem sprite_spec (x y : Reg) (n : BitVec 4) (s : State) :
    (∀ r c, SpriteCovers x y n s r c → (s.sprite x y n).1.cell r c = !(s.cell r c)) ∧
    (∀ r c, ¬ SpriteCovers x y n s r c → (s.sprite x y n).1.cell r c = s.cell r c) ∧
    ((s.sprite x y n).2 = true ↔ ∃ r c, SpriteCovers x y n s r c ∧ s.cell r c = true) := by
  have hlen : (s.bytesAt (s.elemAddr 0) n.toNat).length ≤ 32 := by rw [bytesAt_length]; omega
  obtain ⟨hflip, hkeep, hflag⟩ := drawRows_spec (s.reg x).toNat (s.reg y).toNat _ hlen (s.fb, false)
  simp only [spriteHit_bytesAt] at hflip hkeep hflag
  exact ⟨hflip, hkeep, hflag.trans (by simp [State.cell])⟩

/-- What a draw covers depends only on its two coordinates, `I` and the sprite bytes (R132). -/
theorem spriteCovers_congr (hx : t.reg x = s.reg x) (hy : t.reg y = s.reg y) (hi : t.i = s.i)
    (hbytes : ∀ row < n.toNat, t.byteAt (s.i.toNat + row) = s.byteAt (s.i.toNat + row)) (r : Fin 32) (c : Fin 64) :
    SpriteCovers x y n t r c ↔ SpriteCovers x y n s r c := by
  simp only [SpriteCovers, hx, hy, hi]
  exact exists₂_congr fun row col => and_congr_right fun hrow => by rw [hbytes row hrow]

/-- A sprite of zero bytes covers no cell. -/
theorem not_spriteCovers_of_zero (hzero : ∀ row < n.toNat, s.byteAt (s.i.toNat + row) = 0) (r : Fin 32) (c : Fin 64) :
    ¬ SpriteCovers x y n s r c := by
  rintro ⟨row, col, hrow, -, hbit, -⟩
  simp [hzero row hrow] at hbit

/-! ### What a completed draw does (R131, R133) -/

theorem execDrw_completes (h : n.toNat = 0 ∨ s.i.toNat + n.toNat ≤ 4096) : ∃ t, execDrw x y n s = .next t :=
  ⟨_, indexed_in h⟩

theorem cell_execDrw_of_covers (h : execDrw x y n s = .next t) {r : Fin 32} {c : Fin 64}
    (hc : SpriteCovers x y n s r c) : t.cell r c = !(s.cell r c) := by
  obtain ⟨hflip, -, -⟩ := sprite_spec x y n s
  cases (indexed_next h).2
  exact hflip r c hc

theorem cell_execDrw_of_not_covers (h : execDrw x y n s = .next t) {r : Fin 32} {c : Fin 64}
    (hc : ¬ SpriteCovers x y n s r c) : t.cell r c = s.cell r c := by
  obtain ⟨-, hkeep, -⟩ := sprite_spec x y n s
  cases (indexed_next h).2
  exact hkeep r c hc

/-- `VF` after a draw is its collision flag; with `x = 15` or `y = 15` too (decision D8). -/
theorem flag_execDrw (h : execDrw x y n s = .next t) : t.reg VF = flagByte (s.sprite x y n).2 := by
  cases (indexed_next h).2
  simp

theorem flag_execDrw_of_collision (h : execDrw x y n s = .next t)
    (hc : ∃ r c, SpriteCovers x y n s r c ∧ s.cell r c = true) : t.reg VF = 1 := by
  obtain ⟨-, -, hflag⟩ := sprite_spec x y n s
  rw [flag_execDrw h, hflag.mpr hc]
  rfl

theorem flag_execDrw_of_no_collision (h : execDrw x y n s = .next t)
    (hc : ∀ r c, SpriteCovers x y n s r c → s.cell r c = false) : t.reg VF = 0 := by
  obtain ⟨-, -, hflag⟩ := sprite_spec x y n s
  have hnone : (s.sprite x y n).2 = false := by
    rw [← Bool.not_eq_true, hflag]
    rintro ⟨r, c, hcov, hset⟩
    simp [hc r c hcov] at hset
  rw [flag_execDrw h, hnone]
  rfl

end

/-! ### The blank screen and the snapshot (R130, R134) -/

theorem cell_blank (r : Fin 32) (c : Fin 64) : FrameBuffer.blank.cell r c = false := by
  simp [FrameBuffer.cell, FrameBuffer.blank]

/-- The snapshot as a vector of rows of one length, whose indexing the library knows. -/
theorem snapshot_eq_flatten (s : State) : snapshot s = (s.fb.map (·.map flagByte)).flatten.toList := by
  simp [snapshot, Vector.flatten, Vector.toList, Function.comp_def]

/-! ### The statements settled -/

/-- Settles O45: the drawing's three clauses, and the effect of a draw for the rest. -/
theorem drwFlipsTheCoveredCellsAndReportsCollision : Obligations.DrwFlipsTheCoveredCellsAndReportsCollision := by
  refine ⟨selected_at (k := 22) rfl, fun x y n s hb => ?_⟩
  obtain ⟨t, h⟩ := execDrw_completes (x := x) (y := y) hb
  have e := effect_execDrw h
  exact ⟨t, h, fun _ _ => cell_execDrw_of_covers h, fun _ _ => cell_execDrw_of_not_covers h,
    flag_execDrw_of_collision h, flag_execDrw_of_no_collision h, e.pc rfl, e.regs, e.index nofun nofun nofun,
    e.sameStack nofun nofun, e.sameTimers nofun nofun, e.sameMem nofun nofun, e.sameModel⟩

/-- Settles O46: both draws cover the same cells, so each is flipped twice or not at all; cells found 0 are 1 when the
second draw reaches them. -/
theorem drawingTwiceRestoresTheScreen : Obligations.DrawingTwiceRestoresTheScreen := by
  intro x y n s t s' u h h' hfb hx hy hi hbytes
  have hcov := spriteCovers_congr hx hy hi hbytes
  refine ⟨fun r c => ?_, fun ⟨r, c, hc⟩ hclear => ?_, fun hzero => ?_⟩
  · by_cases hc : SpriteCovers x y n s r c
    · rw [cell_execDrw_of_covers h' ((hcov r c).mpr hc), hfb, cell_execDrw_of_covers h hc, Bool.not_not]
    · rw [cell_execDrw_of_not_covers h' (mt (hcov r c).mp hc), hfb, cell_execDrw_of_not_covers h hc]
  · have hset : s'.cell r c = true := by rw [hfb, cell_execDrw_of_covers h hc, hclear r c hc]; rfl
    exact flag_execDrw_of_collision h' ⟨r, c, (hcov r c).mpr hc, hset⟩
  · have hnone : ∀ r c, ¬ SpriteCovers x y n s r c := not_spriteCovers_of_zero hzero
    exact ⟨flag_execDrw_of_no_collision h fun r c hc => absurd hc (hnone r c),
      flag_execDrw_of_no_collision h' fun r c hc => absurd ((hcov r c).mp hc) (hnone r c)⟩

/-- Settles O55: 32 rows of 64 bytes one after another, so that index `r * 64 + c` is byte `c` of row `r`. -/
theorem snapshotIsRowMajor : Obligations.SnapshotIsRowMajor := by
  intro s
  have hlen : (snapshot s).length = 32 * 64 := by rw [snapshot_eq_flatten, Vector.length_toList]
  refine ⟨hlen, fun r c => ?_⟩
  have hrow : (r.val * 64 + c.val) / 64 = r.val := by omega
  have hcol : (r.val * 64 + c.val) % 64 = c.val := by omega
  rw [List.getElem?_eq_getElem (by omega)]
  simp only [snapshot_eq_flatten, Vector.getElem_toList, Vector.getElem_flatten, Vector.getElem_map, hrow, hcol]
  rfl

/-- Settles O44: cls sets the frame buffer to the blank one; its effect is the rest. -/
theorem clsClearsEveryCell : Obligations.ClsClearsEveryCell := by
  refine ⟨selected_at (k := 0) rfl, fun s => ⟨_, rfl, cell_blank, ?_⟩⟩
  have e := effect_execCls (s := s) rfl
  exact ⟨e.pc rfl, e.regs, e.index nofun nofun nofun, e.sameStack nofun nofun, e.sameTimers nofun nofun,
    e.sameMem nofun nofun, e.sameModel⟩

end Sys2Proof.Machine

/-! ## Timers and keys (spec 45_timers_keys.md) -/

namespace Sys2Proof.Machine

/-! ### Setting a timer: what stays, and the cycle that does it -/

/-- The frame of the two instructions that set a timer: but for the timers and `PC`, nothing changes (R144, R145). -/
def OnlyTimersChange (s t : State) : Prop :=
  SameRegsExcept [] s t ∧ t.i = s.i ∧ SameStack s t ∧ SameMem s t ∧ SameFb s t ∧ SameModel s t

theorem Effect.onlyTimers {i : Instr} {s t : State} (e : Effect i s t)
    (hi : (∃ x, i = .setdt x) ∨ ∃ x, i = .setst x) : OnlyTimersChange s t := by
  rcases hi with ⟨x, rfl⟩ | ⟨x, rfl⟩ <;>
    exact ⟨e.regs, e.index nofun nofun nofun, e.sameStack nofun nofun, e.sameMem nofun nofun, e.sameFb nofun nofun,
      e.sameModel⟩

/-- Where the next instruction completes, so does the cycle (R80). -/
theorem step_of_nextInstr {s t : State} {i : Instr} (hi : nextInstr s = some i) (he : exec i s = .next t) :
    ∃ op, fetch s = .ok op ∧ step s = .next (epilogue op t) := by
  obtain ⟨op, hf, hd⟩ := nextInstr_some hi
  refine ⟨op, hf, ?_⟩
  rw [step_of_exec hf hd, he]

/-! ### The sound timer from cycle to cycle (R86, R145) -/

/-- The epilogue lowers the sound timer by 1, not below 0 (R86). -/
theorem epilogue_st_toNat (op : Word) (s : State) : (epilogue op s).st.toNat = s.st.toNat - 1 := by
  rw [epilogue_st]
  split
  next hpos => exact byte_sub_one_toNat hpos
  next hzero => omega

/-- The epilogue reports `Audio` exactly where execute left the sound timer above 0 (R87). -/
theorem epilogue_audio_iff (op : Word) (s : State) : (epilogue op s).event = some .audio ↔ 0 < s.st.toNat := by
  rw [epilogue_event]
  split <;> simp [*]

/-- What a completed cycle makes of the value `k` that execute leaves in the sound timer. -/
def SoundStepped (k : Nat) (u : State) : Prop := u.st.toNat = k - 1 ∧ (u.event = some .audio ↔ 0 < k)

theorem epilogue_soundStepped (op : Word) (s : State) : SoundStepped s.st.toNat (epilogue op s) :=
  ⟨epilogue_st_toNat op s, epilogue_audio_iff op s⟩

/-- A cycle that runs Fx18 already counts the new value (R145). -/
theorem step_setst_soundStepped {s u : State} {x : Reg} (hi : nextInstr s = some (.setst x)) (h : step s = .next u) :
    SoundStepped (s.reg x).toNat u := by
  obtain ⟨op, t, he, rfl⟩ := step_next_of_nextInstr h hi
  cases he
  exact epilogue_soundStepped op _

/-- Every other cycle counts the value it found (R86). -/
theorem step_soundStepped {s u : State} (hi : ∀ x, nextInstr s ≠ some (.setst x)) (h : step s = .next u) :
    SoundStepped s.st.toNat u := by
  obtain ⟨op, i, t, hf, hd, he, rfl⟩ := step_next h
  have hset : ∀ x, i ≠ .setst x := fun x e => hi x (e ▸ nextInstr_of_fetch hf hd)
  rw [← (exec_effect he).st hset]
  exact epilogue_soundStepped op t

/-! ### A run ends with its last cycle -/

theorem machine_run_succ_last (M : Host.Core) {n : Nat} {s t : M.State} (h : M.run (n + 1) s = .next t) :
    ∃ u, M.run n s = .next u ∧ M.step u = .next t := by
  induction n generalizing s with
  | zero =>
    obtain ⟨u, hstep, hrun⟩ := machine_run_succ M h
    cases hrun
    exact ⟨s, rfl, hstep⟩
  | succ n ih =>
    obtain ⟨v, hstep, hrun⟩ := machine_run_succ M h
    obtain ⟨u, hinit, hlast⟩ := ih hrun
    refine ⟨u, ?_, hlast⟩
    rw [Host.Core.run, hstep]
    exact hinit

/-- A run of `n + 1` cycles is a run of `n`, then a cycle. -/
theorem run_succ_last {n : Nat} {s t : State} (h : Host.Core.run core (n + 1) s = .next t) :
    ∃ u : State, Host.Core.run core n s = .next u ∧ step u = .next t := machine_run_succ_last core h

/-! ### Operations commute with a change to fields they do not use -/

section

variable {f : State → State}

theorem indexed_comm {s t u : State} {len : Nat} (hi : (f s).i = s.i) (hu : u = f t) :
    (f s).indexed len (.next u) = mapNext f (s.indexed len (.next t)) := by
  subst hu
  unfold State.indexed State.elemAddr
  rw [hi, apply_ite (mapNext f)]
  rfl

theorem storeBytes_comm (hf : ∀ s a c, (f s).setByte a c = f (s.setByte a c)) (s : State) (a : Nat) (bs : List Byte) :
    State.storeBytes a bs (f s) = f (State.storeBytes a bs s) := by
  induction bs generalizing a s with
  | nil => rfl
  | cons c bs ih => rw [State.storeBytes, hf, ih, State.storeBytes]

theorem setRegs_comm (hf : ∀ (s : State) (v : Vector Byte 16), { f s with v := v } = f { s with v := v })
    (hv : ∀ s, (f s).v = s.v) (s : State) (k : Nat) (bs : List Byte) :
    State.setRegs k bs (f s) = f (State.setRegs k bs s) := by
  induction bs generalizing k s with
  | nil => rfl
  | cons c bs ih => rw [State.setRegs, hv, hf, ih, State.setRegs]

end

/-! ### Another value of the sound timer

That an instruction does not read `ST` is that it commutes with setting it (R142, R146). -/

/-- The state with another value of the sound timer. -/
def State.withSt (s : State) (b : Byte) : State := { s with st := b }

section

variable (s : State) (b : Byte)

theorem execRet_withSt : execRet (s.withSt b) = mapNext (·.withSt b) (execRet s) := by
  have hpop : (s.withSt b).pop = s.pop.map (fun p => (p.1, p.2.withSt b)) := by
    unfold State.pop
    rw [apply_dite (Option.map _)]
    rfl
  unfold execRet
  rw [hpop]
  cases s.pop <;> rfl

theorem execCall_withSt (nnn : BitVec 12) : execCall nnn (s.withSt b) = mapNext (·.withSt b) (execCall nnn s) := by
  have hpush : (s.withSt b).push ((s.withSt b).pc + 2) = (s.push (s.pc + 2)).map (·.withSt b) := by
    unfold State.push
    rw [apply_dite (Option.map _)]
    rfl
  unfold execCall
  rw [hpush]
  cases s.push (s.pc + 2) <;> rfl

/-- No instruction but Fx18 uses `ST` (R142, R146, R164). -/
theorem exec_withSt {i : Instr} (hi : ∀ x, i ≠ .setst x) :
    exec i (s.withSt b) = mapNext (·.withSt b) (exec i s) := by
  cases i with
  | setst x => exact absurd rfl (hi x)
  | ret => exact execRet_withSt s b
  | call nnn => exact execCall_withSt s b nnn
  | drw => exact indexed_comm (f := (·.withSt b)) rfl rfl
  | bcd | dump =>
    have hstore := storeBytes_comm (f := (·.withSt b)) fun _ _ _ => rfl
    exact indexed_comm (f := (·.withSt b)) rfl (congrArg (State.advance · 2) (hstore s _ _))
  | load =>
    have hfill := setRegs_comm (f := (·.withSt b)) (fun _ _ => rfl) fun _ => rfl
    exact indexed_comm (f := (·.withSt b)) rfl (congrArg (State.advance · 2) (hfill s _ _))
  | _ => rfl

/-- Fx18 overwrites the value, so not even that is left of it (R145). -/
theorem exec_setst_withSt (x : Reg) : exec (.setst x) (s.withSt b) = exec (.setst x) s := rfl

end

/-! ### The statements settled -/

/-- Settles O12, by induction on the run, a cycle at its end: the first cycle counts `V[x]`, each later one the value it
found. -/
theorem settingSoundTimerGivesThatManyAudioCycles : Obligations.SettingSoundTimerGivesThatManyAudioCycles := by
  intro s t x n hset hn hlater hrun
  induction n generalizing t with
  | zero => omega
  | succ n ih =>
    obtain ⟨u, hinit, hlast⟩ := run_succ_last hrun
    rcases Nat.eq_zero_or_pos n with rfl | hpos
    · cases hinit
      exact step_setst_soundStepped hset hlast
    · obtain ⟨hst, -⟩ := ih u hpos (fun k v hk hkn => hlater k v hk (by omega)) hinit
      obtain ⟨hfall, haudio⟩ := step_soundStepped (hlater n u hpos (by omega) hinit) hlast
      exact ⟨by omega, by rw [haudio]; omega⟩

/-- Settles O19: Fx18 overwrites the value, every other instruction commutes with setting it. -/
theorem noInstrReadsTheSoundTimer : Obligations.NoInstrReadsTheSoundTimer := by
  intro i s b
  by_cases hi : ∃ x, i = .setst x
  · obtain ⟨x, rfl⟩ := hi
    exact ⟨fun _ => exec_setst_withSt s b x, fun hne => absurd rfl (hne x), fun f h => nomatch h⟩
  · have hcomm : exec i { s with st := b } = mapNext (·.withSt b) (exec i s) :=
      exec_withSt s b fun x e => hi ⟨x, e⟩
    exact ⟨fun h => absurd h hi, fun _ t h => by rw [hcomm, h]; rfl, fun f h => by rw [hcomm, h]; rfl⟩

/-- Settles O47: both key skips only advance `PC`. -/
theorem keySkipsNeverSkip : Obligations.KeySkipsNeverSkip :=
  ⟨selected_at (k := 23) rfl, selected_at (k := 24) rfl, fun _ s =>
    ⟨⟨_, rfl, rfl, onlyRegs_advance s 2⟩, ⟨_, rfl, rfl, onlyRegs_advance s 2⟩⟩⟩

/-- Settles O48: waitkey only advances `PC`. -/
theorem waitkeyNeverWaits : Obligations.WaitkeyNeverWaits :=
  ⟨selected_at (k := 26) rfl, fun _ s => ⟨_, rfl, rfl, onlyRegs_advance s 2⟩⟩

/-- Settles O49: getdt ends as the instructions do that write one register. -/
theorem getdtCopiesTheDelayTimer : Obligations.GetdtCopiesTheDelayTimer :=
  ⟨selected_at (k := 25) rfl, fun x s => finish_completes s x s.dt⟩

/-- Settles O50: setdt completes in every state, and the delay step of its own cycle finds the new value. -/
theorem setdtSetsTheDelayTimer : Obligations.SetdtSetsTheDelayTimer := by
  refine ⟨selected_at (k := 27) rfl, fun x s => ?_⟩
  obtain ⟨t, he, hdt⟩ : ∃ t, exec (.setdt x) s = .next t ∧ t.dt = s.reg x := ⟨_, rfl, rfl⟩
  have e := exec_effect he
  refine ⟨⟨t, he, hdt, e.st nofun, e.pc rfl, e.onlyTimers (.inl ⟨x, rfl⟩)⟩, fun hi => ?_⟩
  obtain ⟨op, -, hstep⟩ := step_of_nextInstr hi he
  rw [← hdt, ← e.params]
  exact ⟨_, hstep, epilogue_dt_perCycle op, epilogue_dt_off op⟩

/-- Settles O51: setst completes in every state, and the sound step of its own cycle finds the new value. -/
theorem setstSetsTheSoundTimer : Obligations.SetstSetsTheSoundTimer := by
  refine ⟨selected_at (k := 28) rfl, fun x s => ?_⟩
  obtain ⟨t, he, hst⟩ : ∃ t, exec (.setst x) s = .next t ∧ t.st = s.reg x := ⟨_, rfl, rfl⟩
  have e := exec_effect he
  refine ⟨⟨t, he, hst, e.dt nofun, e.pc rfl, e.onlyTimers (.inr ⟨x, rfl⟩)⟩, fun hi => ?_⟩
  obtain ⟨op, hf, hstep⟩ := step_of_nextInstr hi he
  rw [← hst]
  refine ⟨_, hstep, epilogue_st_toNat op t, (epilogue_audio_iff op t).mpr, fun hzero => ⟨op, hf, ?_⟩⟩
  exact (epilogue_of_st_zero op (BitVec.eq_of_toNat_eq hzero)).2

end Sys2Proof.Machine

/-! ## Exceptions: which failure ends a cycle, and when (spec 60_exceptions.md) -/

namespace Sys2Proof.Machine

/-! ### Failures before execute (R152, R153) -/

/-- A failed fetch ends the cycle (R152). -/
theorem step_of_fetch_error {s : State} {f : Fault} (hf : fetch s = .error f) : step s = .fault f := by
  simp only [step, hf]

/-- A fetched opcode that does not decode ends the cycle (R153). -/
theorem step_of_decodeOp_none {s : State} {op : Word} (hf : fetch s = .ok op) (hd : decodeOp op = none) :
    step s = .fault (.decodeFailure op s.pc) := by
  simp only [step, hf, hd]

/-! ### Failures of execute (R154 to R156) -/

section

variable {s : State} {f : Fault}

/-- A return faults exactly with no call outstanding (R155). -/
theorem execRet_fault_iff : execRet s = .fault f ↔ s.sp.val = 0 ∧ f = .stackUnderflow := by
  rw [← pop_none]
  unfold execRet
  cases s.pop <;> simp [eq_comm]

/-- A call faults exactly with all 16 slots occupied (R154, decision D1). -/
theorem execCall_fault_iff {nnn : BitVec 12} :
    execCall nnn s = .fault f ↔ s.sp.val = 16 ∧ f = .stackOverflow := by
  rw [← push_none (w := s.pc + 2)]
  unfold execCall
  cases s.push (s.pc + 2) <;> simp [eq_comm]

/-- The bounds check faults exactly where the highest address used is 4096 or more (R156, decision D11). -/
theorem indexed_fault_iff {t : State} {len : Nat} :
    s.indexed len (.next t) = .fault f ↔
      0 < len ∧ 4096 ≤ s.i.toNat + len - 1 ∧ f = .memoryOutOfBounds (max s.i.toNat 4096) := by
  by_cases hin : len = 0 ∨ s.i.toNat + len ≤ 4096
  · rw [indexed_in hin]
    exact iff_of_false nofun (by omega)
  · rw [indexed_out (by omega) (by omega), Host.Outcome.fault.injEq, eq_comm]
    exact ⟨fun hf => ⟨by omega, by omega, hf⟩, fun ⟨_, _, hf⟩ => hf⟩

end

/-! ### The statements settled -/

/-- Settles O14: the two stack instructions and the four with a bounds check fault as their own lemmas say; the other 28
always complete. -/
theorem execFaultsExactlyAsTheFaultTableSays : Obligations.ExecFaultsExactlyAsTheFaultTableSays := by
  refine fun i s => ⟨exec_not_refused i s, fun f => ?_⟩
  cases i with
  | ret => exact execRet_fault_iff.trans (by simp)
  | call nnn => exact execCall_fault_iff.trans (by simp)
  | bcd | dump | load | drw => exact indexed_fault_iff.trans (by simp)
  | _ => exact iff_of_false nofun (by simp)

/-- Settles O8: the fetch fails, and the cycle with it. -/
theorem stepFaultsWhenFetchIsOutOfBounds : Obligations.StepFaultsWhenFetchIsOutOfBounds :=
  fun _ hpc => step_of_fetch_error (fetch_error hpc)

/-- Settles O9: the fetch succeeds, and the decoder rejects what R69 calls illegal. -/
theorem stepFaultsOnAnIllegalOpcode : Obligations.StepFaultsOnAnIllegalOpcode :=
  fun _ hpc hillegal => step_of_decodeOp_none (fetch_ok hpc) ((decodeRejectsExactlyTheIllegalOpcodes _).mpr hillegal)

/-- Settles O21: in the fault table only the row of 00EE records `StackUnderflow`. -/
theorem stackUnderflowIsRetWithNoCallOutstanding : Obligations.StackUnderflowIsRetWithNoCallOutstanding := by
  refine ⟨fun s hsp => execRet_fault_iff.mpr ⟨hsp, rfl⟩, fun i s h => ?_⟩
  obtain ⟨-, htable⟩ := execFaultsExactlyAsTheFaultTableSays i s
  simpa using (htable _).mp h

/-- Settles O24: in the fault table only the row of 2nnn records `StackOverflow`. -/
theorem stackOverflowIsCallWithAllSlotsOccupied : Obligations.StackOverflowIsCallWithAllSlotsOccupied := by
  refine ⟨fun nnn s hsp => execCall_fault_iff.mpr ⟨hsp, rfl⟩, fun i s h => ?_⟩
  obtain ⟨-, htable⟩ := execFaultsExactlyAsTheFaultTableSays i s
  simpa using (htable _).mp h

/-- Settles O43: the rows of the fault table that record `MemoryOutOfBounds` are those of the four memory instructions; a
draw of no rows passes the bounds check. -/
theorem memoryInstrsFaultOnlyOutOfBounds : Obligations.MemoryInstrsFaultOnlyOutOfBounds := by
  intro s i
  obtain ⟨-, htable⟩ := execFaultsExactlyAsTheFaultTableSays i s
  constructor
  · simp only [htable]
    cases i with
    | drw | bcd | dump | load => simp
    | _ => exact iff_of_false (by simp) (by simp)
  · rintro x y rfl
    exact execDrw_completes (.inl rfl)

end Sys2Proof.Machine

/-! ## Reset, load and the final states (spec 70_reset_and_hazards.md) -/

namespace Sys2Proof.Machine

/-! ### The state a load copies its buffer into (R182, R36)

Everything has its reset value, whatever it was before; only the parameters and the count of draws stay. -/

/-- What `hostLoad` makes of the state before it copies the buffer (decision D16; log entries 1 and 3). -/
def State.cleared (s : State) : State := { State.reset with params := s.params, draws := s.draws }

section

variable (s : State)

@[simp] theorem cleared_i : s.cleared.i = 0 := rfl
@[simp] theorem cleared_pc : s.cleared.pc = 0x200 := rfl
@[simp] theorem cleared_sp : s.cleared.sp = 0 := rfl
@[simp] theorem cleared_dt : s.cleared.dt = 0 := rfl
@[simp] theorem cleared_st : s.cleared.st = 0 := rfl
@[simp] theorem cleared_params : s.cleared.params = s.params := rfl
@[simp] theorem cleared_draws : s.cleared.draws = s.draws := rfl
@[simp] theorem cleared_event : s.cleared.event = none := rfl
@[simp] theorem cleared_reg (r : Reg) : s.cleared.reg r = 0 := by simp [State.reg, State.cleared, State.reset]
@[simp] theorem cleared_slot (k : Fin 16) : s.cleared.slot k = 0 := by simp [State.slot, State.cleared, State.reset]
@[simp] theorem cleared_cell (r : Fin 32) (c : Fin 64) : s.cleared.cell r c = false := cell_blank r c

theorem cleared_byteAt (a : Nat) : s.cleared.byteAt a = Memory.unlisted s.params.font a := rfl

/-- No cell is listed in memory, so its form is canonical at any font. -/
theorem cleared_inv : s.cleared.Inv where
  memWf := rfl
  slotLe k := by simp
  pcLe := by simp

end

/-! ### What a load can do (R182, R183) -/

section

variable {buf : List Byte} {s t : State}

theorem hostLoad_of_fits (h : buf.length ≤ 3584) : hostLoad buf s = .next (s.cleared.storeBytes 0x200 buf) :=
  if_pos (decide_eq_true h)

theorem hostLoad_of_longer (h : 3584 < buf.length) : hostLoad buf s = .refused .loadTooLarge :=
  if_neg (by simpa [Image.wellFormed] using h)

theorem hostLoad_next (h : hostLoad buf s = .next t) : buf.length ≤ 3584 ∧ t = s.cleared.storeBytes 0x200 buf := by
  by_cases hfits : buf.length ≤ 3584
  · rw [hostLoad_of_fits hfits] at h
    cases h
    exact ⟨hfits, rfl⟩
  · rw [hostLoad_of_longer (by omega)] at h
    cases h

/-- Bytes stored below 4096 keep the invariant: they are all of it that changes. -/
theorem storeBytes_keeps_inv {a : Nat} (h : a + buf.length ≤ 4096) (hs : s.Inv) : (s.storeBytes a buf).Inv where
  memWf := wf_storeBytes s a buf h hs.memWf
  slotLe := by simpa using hs.slotLe
  pcLe := by simpa using hs.pcLe

/-! ### The three parts of memory after a load (R31, R182) -/

theorem byteAt_loaded_program {k : Nat} (hk : k < buf.length) :
    (s.cleared.storeBytes 0x200 buf).byteAt (0x200 + k) = buf[k] := by
  rw [byteAt_storeBytes, dif_pos (by omega)]
  simp only [Nat.add_sub_cancel_left]

theorem byteAt_loaded_outside {a : Nat} (ha : a < 0x200 ∨ 0x200 + buf.length ≤ a) :
    (s.cleared.storeBytes 0x200 buf).byteAt a = Memory.unlisted s.params.font a := by
  rw [byteAt_storeBytes, dif_neg (by omega), cleared_byteAt]

end

/-! ### A cycle of a final state (R185) -/

section

variable {s : State}

/-- With no timer to count down, the epilogue only counts the draw and reports the opcode (R85 to R87; D13, D24). -/
theorem epilogue_of_timers_still (op : Word) (hst : s.st = 0) (hdt : s.params.dtCountdown = .perCycle → s.dt = 0) :
    epilogue op s = { s with draws := s.draws + 1, event := some (.executed op) } := by
  have hdelay : s.delayStep = s := if_neg fun ⟨hper, hpos⟩ => (byte_pos_iff _).mp hpos (hdt hper)
  have hsound : s.soundStep op = { s with event := some (.executed op) } := if_neg (by simp [hst])
  rw [epilogue, hdelay, hsound]
  rfl

theorem exec_jmp_self {nnn : BitVec 12} (h : nnn.toNat = s.pc.toNat) : exec (.jmp nnn) s = .next s := by
  have htarget : immAddr nnn = s.pc := BitVec.eq_of_toNat_eq (by rw [immAddr_toNat, h])
  change Host.Outcome.next (s.setPc (immAddr nnn)) = .next s
  rw [htarget]
  rfl

theorem toNat_of_decodeOp_jmp {op : Word} {nnn : BitVec 12} (h : decodeOp op = some (.jmp nnn)) :
    op.toNat = 0x1000 + nnn.toNat := by
  rw [← encodeOfDecodeIsTheOpcode op _ h]
  exact encodeA_toNat 1 (by decide) nnn

/-- Neither the count of draws nor the event bears on whether a state is final (log entries 3 and 5). -/
theorem final_with_draws_event (d : Nat) (e : Option Event) :
    State.Final { s with draws := d, event := e } ↔ s.Final := Iff.rfl

end

/-! ### The statements settled -/

/-- Settles O17: the cleared state has the invariant, and an accepted buffer ends at 4096 at the latest. -/
theorem loadEstablishesTheInvariant : Obligations.LoadEstablishesTheInvariant := by
  intro buf s t h
  obtain ⟨hfits, rfl⟩ := hostLoad_next h
  exact storeBytes_keeps_inv (by omega) (cleared_inv s)

/-- Settles O52: the buffer is stored over the cleared state, so memory reads as the buffer, else as the font or 0; storing
it writes nothing but memory. -/
theorem loadResetsEverythingAndPlacesTheProgram : Obligations.LoadResetsEverythingAndPlacesTheProgram := by
  intro buf s hfits
  have hfont (a : Nat) (ha : a < 80) : (s.cleared.storeBytes 0x200 buf).byteAt a = s.params.font[a] := by
    rw [byteAt_loaded_outside (by omega), Memory.unlisted, dif_pos ha]
  have hzero (a : Nat) (ha : 80 ≤ a) (hout : a < 0x200 ∨ 0x200 + buf.length ≤ a) :
      (s.cleared.storeBytes 0x200 buf).byteAt a = 0 := by
    rw [byteAt_loaded_outside hout, Memory.unlisted, dif_neg (by omega)]
  refine ⟨_, hostLoad_of_fits hfits, ?_⟩
  simpa using ⟨hfont, fun k hk => byteAt_loaded_program hk, hzero⟩

/-- Settles O56: the jump leaves the state as it is, and the epilogue finds no timer to count down. -/
theorem finalStatesStayAsTheyAre : Obligations.FinalStatesStayAsTheyAre := by
  intro s hfinal
  obtain ⟨⟨nnn, hnext, htarget⟩, hst, hdt⟩ := hfinal
  obtain ⟨op, hfetch, hdecode⟩ := nextInstr_some hnext
  have hstep : step s = .next (epilogue op s) := by rw [step_of_exec hfetch hdecode, exec_jmp_self htarget]
  refine ⟨op, hfetch, ?_, ?_, ?_⟩
  · rw [toNat_of_decodeOp_jmp hdecode, htarget]
  · rw [hstep, epilogue_of_timers_still op hst hdt]
  · exact (final_with_draws_event _ _).mpr ⟨⟨nnn, hnext, htarget⟩, hst, hdt⟩

/-- Settles O53: the length check fails. -/
theorem loadOfALongerBufferIsRefused : Obligations.LoadOfALongerBufferIsRefused := fun _ _ h => hostLoad_of_longer h

/-- Settles O54: at `0x200` memory reads as 0, and no row of the map selects the opcode `0x0000`. -/
theorem resetIsTheEmptyLoadAndFailsToDecode : Obligations.ResetIsTheEmptyLoadAndFailsToDecode := by
  have hfetch : fetch State.reset = .ok 0x0000 := rfl
  have hdecode : decodeOp 0x0000 = none := by decide
  exact ⟨hostLoad_of_fits (Nat.zero_le _), step_of_decodeOp_none hfetch hdecode⟩

end Sys2Proof.Machine
